-- ==== Sys2Proof/Word.lean ====
section
/-! DEFINITION. The word types of the CORE (spec/00_scope.md R6, R9): unsigned values of 8 and 16 bits, the 12-bit
address field and the 4-bit fields. Arithmetic on them is `BitVec`'s, which is taken modulo 2^width (R9, R184). -/

namespace Sys2Proof

/-- A register, memory or timer byte: `UInt8` of the spec (R6 `REG_BITS`). -/
abbrev Byte := BitVec 8

/-- An instruction word, or a pc, I or stack value: `UInt16` of the spec (R6 `PC_BITS`, `I_BITS`). -/
abbrev Word := BitVec 16

/-- The field NNN: a 12-bit address (R12, R92). -/
abbrev Addr12 := BitVec 12

/-- A 4-bit field: the register numbers X and Y, the row count N, a key number (R12, R92, R326 `UInt4`). -/
abbrev Nibble := BitVec 4

end Sys2Proof
end

