-- ==== Sys2Proof/Syntax.lean ====
section
/-! DEFINITION. The instructions: one constructor per row of spec/opcode_table.json, in the table's order
(spec/30_encoding.md R94, R95), each carrying exactly the operand fields of its row. -/

namespace Sys2Proof

/-- An instruction (R95). `x` and `y` are register numbers, `n` a row count, `nn` an immediate byte and `nnn` an
address; all unsigned (R92). -/
inductive Instr where
  /-- 00E0 CLS: clear the framebuffer (R250). -/
  | cls
  /-- 00EE RET: return from subroutine (R136). -/
  | ret
  /-- 0NNN SYS NNN: legacy machine-code call, a reported no-op (R135). -/
  | sys (nnn : Addr12)
  /-- 1NNN JP NNN (R137). -/
  | jp (nnn : Addr12)
  /-- 2NNN CALL NNN (R138). -/
  | call (nnn : Addr12)
  /-- 3XNN SE Vx, NN (R140). -/
  | seImm (x : Nibble) (nn : Byte)
  /-- 4XNN SNE Vx, NN (R141). -/
  | sneImm (x : Nibble) (nn : Byte)
  /-- 5XY0 SE Vx, Vy (R142). -/
  | seReg (x y : Nibble)
  /-- 6XNN LD Vx, NN (R171). -/
  | ldImm (x : Nibble) (nn : Byte)
  /-- 7XNN ADD Vx, NN, no flag (R172). -/
  | addImm (x : Nibble) (nn : Byte)
  /-- 8XY0 LD Vx, Vy (R173). -/
  | ldReg (x y : Nibble)
  /-- 8XY1 OR Vx, Vy (R174). -/
  | orReg (x y : Nibble)
  /-- 8XY2 AND Vx, Vy (R175). -/
  | andReg (x y : Nibble)
  /-- 8XY3 XOR Vx, Vy (R176). -/
  | xorReg (x y : Nibble)
  /-- 8XY4 ADD Vx, Vy with carry to VF (R177). -/
  | addReg (x y : Nibble)
  /-- 8XY5 SUB Vx, Vy (R178). -/
  | sub (x y : Nibble)
  /-- 8XY6 SHR Vx; `y` is a don't-care field (R99, R179). -/
  | shr (x y : Nibble)
  /-- 8XY7 SUBN Vx, Vy (R180). -/
  | subn (x y : Nibble)
  /-- 8XYE SHL Vx; `y` is a don't-care field (R99, R181). -/
  | shl (x y : Nibble)
  /-- 9XY0 SNE Vx, Vy (R143). -/
  | sneReg (x y : Nibble)
  /-- ANNN LD I, NNN (R220). -/
  | ldI (nnn : Addr12)
  /-- BNNN JP V0, NNN (R139). -/
  | jpV0 (nnn : Addr12)
  /-- CXNN RND Vx, NN (R182). -/
  | rnd (x : Nibble) (nn : Byte)
  /-- DXYN DRW Vx, Vy, N (R251). -/
  | drw (x y n : Nibble)
  /-- EX9E SKP Vx (R273). -/
  | skp (x : Nibble)
  /-- EXA1 SKNP Vx (R274). -/
  | sknp (x : Nibble)
  /-- FX07 LD Vx, DT (R270). -/
  | ldFromDT (x : Nibble)
  /-- FX0A LD Vx, K (R275). -/
  | ldKey (x : Nibble)
  /-- FX15 LD DT, Vx (R271). -/
  | ldDT (x : Nibble)
  /-- FX18 LD ST, Vx (R272). -/
  | ldST (x : Nibble)
  /-- FX1E ADD I, Vx (R221). -/
  | addI (x : Nibble)
  /-- FX29 LD F, Vx (R222). -/
  | ldF (x : Nibble)
  /-- FX33 LD B, Vx (R223). -/
  | ldB (x : Nibble)
  /-- FX55 LD [I], Vx (R224). -/
  | store (x : Nibble)
  /-- FX65 LD Vx, [I] (R225). -/
  | load (x : Nibble)
deriving DecidableEq, Repr

end Sys2Proof
end

