-- ==== Sys2Proof/WellFormed.lean ====
section
/-! DEFINITION. Which instructions have a word. Operand widths are in the types; the one check left is the condition of
row 3 of spec/30_encoding.md R94: NNN of the legacy call is not 0x000 (an illegal word, R97), 0x0E0 (CLS) or
0x0EE (RET). -/

namespace Sys2Proof

/-- The condition column of R94, per constructor. -/
def Instr.wf : Instr → Bool
  | .sys nnn => nnn != 0x000#12 && nnn != 0x0E0#12 && nnn != 0x0EE#12
  | .cls | .ret | .jp _ | .call _ => true
  | .seImm _ _ | .sneImm _ _ | .seReg _ _ | .sneReg _ _ => true
  | .ldImm _ _ | .addImm _ _ | .ldReg _ _ | .orReg _ _ | .andReg _ _ | .xorReg _ _ => true
  | .addReg _ _ | .sub _ _ | .shr _ _ | .subn _ _ | .shl _ _ | .rnd _ _ => true
  | .ldI _ | .jpV0 _ | .drw _ _ _ => true
  | .skp _ | .sknp _ | .ldFromDT _ | .ldKey _ | .ldDT _ | .ldST _ => true
  | .addI _ | .ldF _ | .ldB _ | .store _ | .load _ => true

end Sys2Proof
end

