-- ==== Sys2Proof/Decode.lean ====
section
/-! DEFINITION. Decoding and encoding (spec/30_encoding.md). `decode` follows the pseudocode of R95; `opcodeTable` is the
table of R94 read as data; `encode` writes the patterns of R94. An instruction word is big-endian in memory
(spec/20_memory.md R63). -/

namespace Sys2Proof

/-! ### Fields of a word (R91, R92) -/

/-- `n3 = w[15:12]`, the family nibble. -/
def fieldOp (w : Word) : Nibble := w.extractLsb' 12 4
/-- `X = w[11:8]`. -/
def fieldX (w : Word) : Nibble := w.extractLsb' 8 4
/-- `Y = w[7:4]`. -/
def fieldY (w : Word) : Nibble := w.extractLsb' 4 4
/-- `N = w[3:0]`. -/
def fieldN (w : Word) : Nibble := w.extractLsb' 0 4
/-- `NN = w[7:0]`. -/
def fieldNN (w : Word) : Byte := w.extractLsb' 0 8
/-- `NNN = w[11:0]`. -/
def fieldNNN (w : Word) : Addr12 := w.extractLsb' 0 12

/-! ### The decoder (R95) -/

/-- Why a word is not an instruction: one name for each kind of illegal word of R97, and one for bytes that hold no
whole word. The spec's own outcome is the same for all of them, `Invalid` (R94, R96). -/
inductive DecodeError where
  /-- The word 0x0000 (R97, D5). -/
  | zeroWord
  /-- 5XYN or 9XYN with N not 0 (R97, D6). -/
  | compareLowNibble
  /-- 8XYN with N one of 8..D, F (R97). -/
  | aluLowNibble
  /-- EXNN with NN not 9E or A1 (R97). -/
  | keyLowByte
  /-- FXNN with NN none of the nine of R97. -/
  | miscLowByte
  /-- Fewer than two bytes. Raised by `decodeBytes` only; a fetch always has two (R64). -/
  | truncated
deriving DecidableEq, Repr

/-- Family 8 (R95). -/
def decodeAlu (x y n : Nibble) : Except DecodeError Instr :=
  match n with
  | 0x0#4 => .ok (.ldReg x y)
  | 0x1#4 => .ok (.orReg x y)
  | 0x2#4 => .ok (.andReg x y)
  | 0x3#4 => .ok (.xorReg x y)
  | 0x4#4 => .ok (.addReg x y)
  | 0x5#4 => .ok (.sub x y)
  | 0x6#4 => .ok (.shr x y)
  | 0x7#4 => .ok (.subn x y)
  | 0xE#4 => .ok (.shl x y)
  | _ => .error .aluLowNibble

/-- Family E (R95). -/
def decodeKey (x : Nibble) (nn : Byte) : Except DecodeError Instr :=
  match nn with
  | 0x9E#8 => .ok (.skp x)
  | 0xA1#8 => .ok (.sknp x)
  | _ => .error .keyLowByte

/-- Family F (R95). -/
def decodeMisc (x : Nibble) (nn : Byte) : Except DecodeError Instr :=
  match nn with
  | 0x07#8 => .ok (.ldFromDT x)
  | 0x0A#8 => .ok (.ldKey x)
  | 0x15#8 => .ok (.ldDT x)
  | 0x18#8 => .ok (.ldST x)
  | 0x1E#8 => .ok (.addI x)
  | 0x29#8 => .ok (.ldF x)
  | 0x33#8 => .ok (.ldB x)
  | 0x55#8 => .ok (.store x)
  | 0x65#8 => .ok (.load x)
  | _ => .error .miscLowByte

/-- Family 0 (R95; C8: clear-screen and return are matched before the legacy call). -/
def decodeZero (w : Word) : Except DecodeError Instr :=
  if w = 0x00E0#16 then .ok .cls
  else if w = 0x00EE#16 then .ok .ret
  else if fieldNNN w = 0x000#12 then .error .zeroWord
  else .ok (.sys (fieldNNN w))

/-- `decode` of R95, total on all words. The last arm is family F, the one nibble value left. -/
def decode (w : Word) : Except DecodeError Instr :=
  match fieldOp w with
  | 0x0#4 => decodeZero w
  | 0x1#4 => .ok (.jp (fieldNNN w))
  | 0x2#4 => .ok (.call (fieldNNN w))
  | 0x3#4 => .ok (.seImm (fieldX w) (fieldNN w))
  | 0x4#4 => .ok (.sneImm (fieldX w) (fieldNN w))
  | 0x5#4 => if fieldN w = 0x0#4 then .ok (.seReg (fieldX w) (fieldY w)) else .error .compareLowNibble
  | 0x6#4 => .ok (.ldImm (fieldX w) (fieldNN w))
  | 0x7#4 => .ok (.addImm (fieldX w) (fieldNN w))
  | 0x8#4 => decodeAlu (fieldX w) (fieldY w) (fieldN w)
  | 0x9#4 => if fieldN w = 0x0#4 then .ok (.sneReg (fieldX w) (fieldY w)) else .error .compareLowNibble
  | 0xA#4 => .ok (.ldI (fieldNNN w))
  | 0xB#4 => .ok (.jpV0 (fieldNNN w))
  | 0xC#4 => .ok (.rnd (fieldX w) (fieldNN w))
  | 0xD#4 => .ok (.drw (fieldX w) (fieldY w) (fieldN w))
  | 0xE#4 => decodeKey (fieldX w) (fieldNN w)
  | _ => decodeMisc (fieldX w) (fieldNN w)

/-! ### The opcode table as data (R94) -/

/-- One row of the table of R94: the word is of this row when its bits under `mask` are `pattern` and it is none of
`excluded`. -/
structure OpcodeRow where
  mnemonic : String
  mask : Word
  pattern : Word
  excluded : List Word
  build : Word → Instr

/-- The condition column of R94. -/
def OpcodeRow.hits (r : OpcodeRow) (w : Word) : Bool :=
  w &&& r.mask == r.pattern && !r.excluded.contains w

/-- Rows 1 to 10 of R94. -/
def opcodeRowsA : List OpcodeRow :=
  [ ⟨"CLS", 0xFFFF, 0x00E0, [], fun _ => .cls⟩,
    ⟨"RET", 0xFFFF, 0x00EE, [], fun _ => .ret⟩,
    ⟨"SYS_NNN", 0xF000, 0x0000, [0x0000, 0x00E0, 0x00EE], fun w => .sys (fieldNNN w)⟩,
    ⟨"JP_NNN", 0xF000, 0x1000, [], fun w => .jp (fieldNNN w)⟩,
    ⟨"CALL_NNN", 0xF000, 0x2000, [], fun w => .call (fieldNNN w)⟩,
    ⟨"SE_Vx__NN", 0xF000, 0x3000, [], fun w => .seImm (fieldX w) (fieldNN w)⟩,
    ⟨"SNE_Vx__NN", 0xF000, 0x4000, [], fun w => .sneImm (fieldX w) (fieldNN w)⟩,
    ⟨"SE_Vx__Vy", 0xF00F, 0x5000, [], fun w => .seReg (fieldX w) (fieldY w)⟩,
    ⟨"LD_Vx__NN", 0xF000, 0x6000, [], fun w => .ldImm (fieldX w) (fieldNN w)⟩,
    ⟨"ADD_Vx__NN", 0xF000, 0x7000, [], fun w => .addImm (fieldX w) (fieldNN w)⟩ ]

/-- Rows 11 to 20 of R94. -/
def opcodeRowsB : List OpcodeRow :=
  [ ⟨"LD_Vx__Vy", 0xF00F, 0x8000, [], fun w => .ldReg (fieldX w) (fieldY w)⟩,
    ⟨"OR_Vx__Vy", 0xF00F, 0x8001, [], fun w => .orReg (fieldX w) (fieldY w)⟩,
    ⟨"AND_Vx__Vy", 0xF00F, 0x8002, [], fun w => .andReg (fieldX w) (fieldY w)⟩,
    ⟨"XOR_Vx__Vy", 0xF00F, 0x8003, [], fun w => .xorReg (fieldX w) (fieldY w)⟩,
    ⟨"ADD_Vx__Vy", 0xF00F, 0x8004, [], fun w => .addReg (fieldX w) (fieldY w)⟩,
    ⟨"SUB_Vx__Vy", 0xF00F, 0x8005, [], fun w => .sub (fieldX w) (fieldY w)⟩,
    ⟨"SHR_Vx____Vy", 0xF00F, 0x8006, [], fun w => .shr (fieldX w) (fieldY w)⟩,
    ⟨"SUBN_Vx__Vy", 0xF00F, 0x8007, [], fun w => .subn (fieldX w) (fieldY w)⟩,
    ⟨"SHL_Vx____Vy", 0xF00F, 0x800E, [], fun w => .shl (fieldX w) (fieldY w)⟩,
    ⟨"SNE_Vx__Vy", 0xF00F, 0x9000, [], fun w => .sneReg (fieldX w) (fieldY w)⟩ ]

/-- Rows 21 to 35 of R94. -/
def opcodeRowsC : List OpcodeRow :=
  [ ⟨"LD_I__NNN", 0xF000, 0xA000, [], fun w => .ldI (fieldNNN w)⟩,
    ⟨"JP_V0__NNN", 0xF000, 0xB000, [], fun w => .jpV0 (fieldNNN w)⟩,
    ⟨"RND_Vx__NN", 0xF000, 0xC000, [], fun w => .rnd (fieldX w) (fieldNN w)⟩,
    ⟨"DRW_Vx__Vy__N", 0xF000, 0xD000, [], fun w => .drw (fieldX w) (fieldY w) (fieldN w)⟩,
    ⟨"SKP_Vx", 0xF0FF, 0xE09E, [], fun w => .skp (fieldX w)⟩,
    ⟨"SKNP_Vx", 0xF0FF, 0xE0A1, [], fun w => .sknp (fieldX w)⟩,
    ⟨"LD_Vx__DT", 0xF0FF, 0xF007, [], fun w => .ldFromDT (fieldX w)⟩,
    ⟨"LD_Vx__K", 0xF0FF, 0xF00A, [], fun w => .ldKey (fieldX w)⟩,
    ⟨"LD_DT__Vx", 0xF0FF, 0xF015, [], fun w => .ldDT (fieldX w)⟩,
    ⟨"LD_ST__Vx", 0xF0FF, 0xF018, [], fun w => .ldST (fieldX w)⟩,
    ⟨"ADD_I__Vx", 0xF0FF, 0xF01E, [], fun w => .addI (fieldX w)⟩,
    ⟨"LD_F__Vx", 0xF0FF, 0xF029, [], fun w => .ldF (fieldX w)⟩,
    ⟨"LD_B__Vx", 0xF0FF, 0xF033, [], fun w => .ldB (fieldX w)⟩,
    ⟨"LD__I___Vx", 0xF0FF, 0xF055, [], fun w => .store (fieldX w)⟩,
    ⟨"LD_Vx___I", 0xF0FF, 0xF065, [], fun w => .load (fieldX w)⟩ ]

/-- The table of R94, in its order. -/
def opcodeTable : List OpcodeRow := opcodeRowsA ++ opcodeRowsB ++ opcodeRowsC

/-- R94 as it is worded: the table "read top to bottom; a word that matches no row is `Invalid`". -/
def decodeByTable (w : Word) : Option Instr :=
  (opcodeTable.find? (·.hits w)).map (·.build w)

/-! ### Bytes (R63) -/

/-- The two bytes of a word as memory holds them: the high byte at the lower address (R63). -/
def wordBytes (w : Word) : List Byte := [w.extractLsb' 8 8, w.extractLsb' 0 8]

/-- The word of two bytes, `{hi, lo}` (R63, R64). -/
def bytesWord (hi lo : Byte) : Word := hi ++ lo

/-- The decoder on any bytes: the first instruction and the bytes after it. -/
def decodeBytes : List Byte → Except DecodeError (Instr × List Byte)
  | hi :: lo :: rest =>
    match decode (bytesWord hi lo) with
    | .ok i => .ok (i, rest)
    | .error e => .error e
  | _ => .error .truncated

/-- The host's question to the decoder: an instruction of `nbits` bits whose bits are `w` (bit 0 the least significant of
the first word), every bit above them 0, laid out as memory holds it (R63, R90). -/
def decodeTableWord (nbits w : Nat) : Option Instr :=
  match decodeBytes (wordBytes (BitVec.ofNat 16 (w % 2 ^ nbits))) with
  | .ok (i, _) => some i
  | .error _ => none

/-! ### The encoder (R91, R94) -/

/-- The word of an instruction: the pattern column of R94, the fields at the places of R91. -/
def encode : Instr → Word
  | .cls => 0x00E0#16
  | .ret => 0x00EE#16
  | .sys nnn => 0x0#4 ++ nnn
  | .jp nnn => 0x1#4 ++ nnn
  | .call nnn => 0x2#4 ++ nnn
  | .seImm x nn => 0x3#4 ++ x ++ nn
  | .sneImm x nn => 0x4#4 ++ x ++ nn
  | .seReg x y => 0x5#4 ++ x ++ y ++ 0x0#4
  | .ldImm x nn => 0x6#4 ++ x ++ nn
  | .addImm x nn => 0x7#4 ++ x ++ nn
  | .ldReg x y => 0x8#4 ++ x ++ y ++ 0x0#4
  | .orReg x y => 0x8#4 ++ x ++ y ++ 0x1#4
  | .andReg x y => 0x8#4 ++ x ++ y ++ 0x2#4
  | .xorReg x y => 0x8#4 ++ x ++ y ++ 0x3#4
  | .addReg x y => 0x8#4 ++ x ++ y ++ 0x4#4
  | .sub x y => 0x8#4 ++ x ++ y ++ 0x5#4
  | .shr x y => 0x8#4 ++ x ++ y ++ 0x6#4
  | .subn x y => 0x8#4 ++ x ++ y ++ 0x7#4
  | .shl x y => 0x8#4 ++ x ++ y ++ 0xE#4
  | .sneReg x y => 0x9#4 ++ x ++ y ++ 0x0#4
  | .ldI nnn => 0xA#4 ++ nnn
  | .jpV0 nnn => 0xB#4 ++ nnn
  | .rnd x nn => 0xC#4 ++ x ++ nn
  | .drw x y n => 0xD#4 ++ x ++ y ++ n
  | .skp x => 0xE#4 ++ x ++ 0x9E#8
  | .sknp x => 0xE#4 ++ x ++ 0xA1#8
  | .ldFromDT x => 0xF#4 ++ x ++ 0x07#8
  | .ldKey x => 0xF#4 ++ x ++ 0x0A#8
  | .ldDT x => 0xF#4 ++ x ++ 0x15#8
  | .ldST x => 0xF#4 ++ x ++ 0x18#8
  | .addI x => 0xF#4 ++ x ++ 0x1E#8
  | .ldF x => 0xF#4 ++ x ++ 0x29#8
  | .ldB x => 0xF#4 ++ x ++ 0x33#8
  | .store x => 0xF#4 ++ x ++ 0x55#8
  | .load x => 0xF#4 ++ x ++ 0x65#8

/-- The bytes of an instruction as memory holds them (R63). -/
def encodeBytes (i : Instr) : List Byte := wordBytes (encode i)

end Sys2Proof
end

