-- ==== Sys2Proof/Config.lean ====
section
/-! DEFINITION. What an implementation fixes and what the spec leaves open (spec/00_scope.md R6, 92_eei_decisions.md).
The parameters the spec gives a value (`SUB_VF_POLARITY`, `LOADSTORE_INC_I`, `LOW_IMAGE`) have their value in
Machine/Flags.lean, Machine/Operands.lean and Machine/Ops.lean; the OPEN ones, and what the environment is free to choose,
are constants here with no body, so that nothing can be proved of what they are. -/

namespace Sys2Proof.Machine

/-- One atomic step of one agent (R324): what a turn of the agenda asks for. -/
inductive Turn where
  /-- The core's instruction step (R130). -/
  | core
  /-- `in.tick` (R320). -/
  | tick
  /-- `in.redraw` (R321). -/
  | redraw
  /-- `in.key_press` with the key pressed (R326). -/
  | keyPress (k : Nibble)
  /-- `in.quit` (R314). -/
  | quit
deriving DecidableEq, Repr, Inhabited

end Sys2Proof.Machine

namespace Sys2Proof.Config

/-- The two readings of the flag of 8XY5 and 8XY7 (R183). Which one holds is `Machine.subVfPolarity`. -/
inductive SubVfPolarity where
  /-- VF = 1 exactly when the subtraction borrowed. -/
  | borrow
  /-- VF = 1 exactly when it did not. -/
  | noBorrow
deriving DecidableEq, Repr

/-- `FONT_ADDR : UInt8 -> UInt16`, OPEN (R6, R222, D12): where the glyph of a register's value lies. Free: log 7. -/
opaque fontAddr : Byte → Word

/-- The byte that the environment puts on `in.rand` for the n-th draw, when `State.randIn` holds none (R182, R327).
Free: log 3. -/
opaque randByte : Nat → Byte

/-- The 16 key-down flags that the environment puts on `in.keys` for the n-th draw, when `State.keysIn` holds none
(R325). Free: log 3. -/
opaque keysDown : Nat → Vector Bool 16

/-- The agent that takes the n-th free turn: any enabled step may be next (R324). Free: log 2. -/
opaque freeTurn : Nat → Machine.Turn

/-- `TICK_HZ` (R6, R320). No rule of the model reads it: time is not modelled (R356, log 8). -/
def tickHz : Nat := 60

/-- `INSTR_RATE`, OPEN (R6, R356). No rule of the model reads it (log 8). -/
opaque instrRate : Nat

/-- `REDRAW_RATE`, OPEN (R6, R356). No rule of the model reads it (log 8). -/
opaque redrawRate : Nat

end Sys2Proof.Config
end

