-- ==== Sys2Proof/Machine/State.lean ====
section
/-! DEFINITION. The machine's state as plain data (spec/10_state.md R20), the reasons a run halts (spec/60_exceptions.md
R300), the outcomes of a step that are not a state, and the state after reset (spec/70_reset_and_hazards.md R351). -/

namespace Sys2Proof.Machine

/-- The 4096-byte memory (R29, R60), as the rising list of the (address, byte) pairs that differ from what an unlisted
address reads as (`Memory.unlisted`); `Memory.wf` is that canonical form (log 5). -/
abbrev Memory := List Host.Cell

/-- The framebuffer `fb[x][y]`: 64 columns x of 32 rows y, (0,0) at the top left, true = lit (R28). -/
abbrev Framebuffer := Vector (Vector Bool 32) 64

/-- What the redraw hand-off gives out: 2048 pixels indexed y * 64 + x (R321, D20). -/
abbrev Snapshot := Vector Bool 2048

/-- The key-down flags of the keys 0x0..0xF (R325). -/
abbrev KeySnapshot := Vector Bool 16

/-- Why a run halted, with the info the spec records (R300). -/
inductive HaltReason where
  /-- The word fetched at `pc` is illegal (R301). -/
  | decodeFailure (word pc : Word)
  /-- A call with 16 entries on the stack (R302). -/
  | stackOverflow (pc : Word)
  /-- A return with an empty stack (R303). -/
  | stackUnderflow (pc : Word)
  /-- A fetch at an address above 0xFFE (R304). -/
  | pcOutOfRange (pc : Word)
  /-- An access through I at an address above 0xFFF; `addr` is the lowest such address, an integer (R66, R305). -/
  | memoryOutOfRange (addr : Nat) (pc : Word)
  /-- A key query with V[X] above 0xF (R306). -/
  | keyIndexOutOfRange (key : Byte) (pc : Word)
  /-- The host's quit request (R314). -/
  | quit
deriving DecidableEq, Repr

/-- The driver-loop state (R30). -/
inductive RunState where
  /-- The core performs instruction steps (R130). -/
  | running
  /-- FX0A waits for a key press to write to V[x] (R275, R276). -/
  | waitingForKey (x : Nibble)
  /-- Terminal (R310). -/
  | halted (reason : HaltReason)
deriving DecidableEq, Repr

/-- One record on `out.report` (R307). -/
structure LegacyReport where
  word : Word
  pc : Word
  target : Addr12
deriving DecidableEq, Repr

/-- One failure of the table of R300: one of the fatal reasons, or the recoverable report. -/
inductive Failure where
  /-- Ends the run in `Halted(reason)`. -/
  | fatal (reason : HaltReason)
  /-- Reported, and the run goes on (R307). -/
  | legacy (report : LegacyReport)
deriving DecidableEq, Repr

/-- Which agent has the turn, now and later (R324, log 2): the turns listed come first, then the cycle over and over; with
no cycle, every turn after the listed ones is free. -/
structure Agenda where
  /-- The turns to come first, next one first. -/
  listed : List Turn
  /-- What is listed again whenever nothing is; empty where the schedule is free. -/
  cycle : List Turn
  /-- How many free turns were taken: the argument of the next one. -/
  freeTurns : Nat
deriving DecidableEq, Repr

/-- The state. The fields from `V` to `fbDirty` are the spec's record (R20); `reports` and `fbSnapshot` keep what left
through an output port (log 6); the rest stands for the inputs of R33 (log 2, log 3). -/
structure State where
  /-- V0..VF (R21); VF is the flag register (R22). -/
  V : Vector Byte 16
  /-- The index register (R24). -/
  I : Word
  /-- The program counter (R25). -/
  pc : Word
  /-- The call stack, its top first (R26, log 4). -/
  stack : List Word
  /-- The memory (R29). -/
  mem : Memory
  /-- The framebuffer (R28). -/
  fb : Framebuffer
  /-- The delay timer (R27). -/
  DT : Byte
  /-- The sound timer (R27). -/
  ST : Byte
  /-- The driver state (R30). -/
  run : RunState
  /-- The redraw flag `fb_dirty` (R31). -/
  fbDirty : Bool
  /-- The Legacy reports so far, oldest first (R307). -/
  reports : List LegacyReport
  /-- The last copy on `out.fb_snapshot` (R321). -/
  fbSnapshot : Option Snapshot
  /-- The turns to come (R324). -/
  agenda : Agenda
  /-- The bytes already on `in.rand`, next first (R327). -/
  randIn : List Byte
  /-- The snapshots already on `in.keys`, next first (R325). -/
  keysIn : List KeySnapshot
  /-- How many draws were made: the argument of the next free value (log 3). -/
  draws : Nat
deriving DecidableEq, Repr

/-- Why the machine has no next state. -/
inductive Fault where
  /-- Raised by `step` on a machine in `Halted(reason)`: no agent has a step there, for good (R310, log 1). Safe: the
  model stops where the spec's machine has stopped. -/
  | halted (reason : HaltReason)
deriving DecidableEq, Repr

/-- Why an instruction has no meaning in the model. -/
inductive Refusal where
  /-- An arm of `exec` whose instruction has no meaning yet. No arm raises it. Safe: nothing can be proved of such an
  instruction. -/
  | notModelled (mnemonic : String)
deriving DecidableEq, Repr

/-- No pixel lit (R28, R250). -/
def Framebuffer.blank : Framebuffer := Vector.replicate 64 (Vector.replicate 32 false)

/-- Power-on (R350, R351): all fields zeroed, pc = 0x200; memory lists nothing, so every byte reads as its reset
contents; every turn is free, no input or draw is pending, and nothing has left through a port (log 2, log 3, log 6). -/
def State.reset : State where
  V := Vector.replicate 16 0x00#8
  I := 0x0000#16
  pc := 0x0200#16
  stack := []
  mem := []
  fb := Framebuffer.blank
  DT := 0x00#8
  ST := 0x00#8
  run := .running
  fbDirty := false
  reports := []
  fbSnapshot := none
  agenda := ⟨[], [], 0⟩
  randIn := []
  keysIn := []
  draws := 0

end Sys2Proof.Machine
end

