-- ==== Sys2Proof/Machine/Ops.lean ====
section
/-! DEFINITION. The named operations over the state: memory (spec/20_memory.md), registers, the call stack, the outputs,
the draws from the environment, fault entry (spec/60_exceptions.md R309) and the loader (spec/70_reset_and_hazards.md
R352). -/

namespace Sys2Proof.Machine

/-! ### Memory -/

/-- `LOW_IMAGE`, the reset contents of 0x000..0x1FF: zero bytes in this spec (R6, R29, D13). -/
def lowImage (_a : Nat) : Byte := 0x00#8

/-- What an address that is not listed reads as: the reset contents (R351). -/
def Memory.unlisted (a : Nat) : Byte := if a < 0x200 then lowImage a else 0x00#8

/-- The byte at an address. -/
def Memory.read : Memory → Nat → Byte
  | [], a => Memory.unlisted a
  | (b, v) :: rest, a => if a = b then v else Memory.read rest a

/-- The memory with one byte changed, in canonical form again. -/
def Memory.write : Memory → Nat → Byte → Memory
  | [], a, v => if v = Memory.unlisted a then [] else [(a, v)]
  | (b, w) :: rest, a, v =>
    if a < b then
      if v = Memory.unlisted a then (b, w) :: rest else (a, v) :: (b, w) :: rest
    else if a = b then
      if v = Memory.unlisted a then rest else (a, v) :: rest
    else (b, w) :: Memory.write rest a v

/-- Consecutive bytes changed, from an address upward. -/
def Memory.writeFrom (m : Memory) (a : Nat) : List Byte → Memory
  | [] => m
  | v :: vs => Memory.writeFrom (Memory.write m a v) (a + 1) vs

/-- Whether every listed address lies above a bound. -/
def Memory.above (lo : Nat) : Memory → Bool
  | [] => true
  | (b, _) :: rest => decide (lo < b) && Memory.above lo rest

/-- The canonical form: addresses strictly rising, each below 4096, none listed with what it would read as unlisted
(log 5). -/
def Memory.wf : Memory → Bool
  | [] => true
  | (b, v) :: rest =>
    decide (b < 4096) && v != Memory.unlisted b && Memory.above b rest && Memory.wf rest

/-- `MemRead(a, 1)` (R61): the byte, or the address that is out of range. -/
def memRead (m : Memory) (a : Nat) : Except Nat Byte :=
  if a ≤ 0xFFF then .ok (m.read a) else .error a

/-- `MemWrite(a, 1, v)` (R62): the new memory, or the address that is out of range. -/
def memWrite (m : Memory) (a : Nat) (v : Byte) : Except Nat Memory :=
  if a ≤ 0xFFF then .ok (m.write a v) else .error a

/-- `MemRead(a + k, 1)` for k = 0 .. n-1, in that order; the first that fails fails them all (R66). -/
def memReadBytes (m : Memory) (a : Nat) : Nat → Except Nat (List Byte)
  | 0 => .ok []
  | n + 1 =>
    match memRead m a with
    | .error e => .error e
    | .ok b =>
      match memReadBytes m (a + 1) n with
      | .error e => .error e
      | .ok bs => .ok (b :: bs)

/-- `MemWrite(a + k, 1, vs[k])` for each k, in that order; the first that fails fails them all, and no byte is written
(R62, R66). -/
def memWriteBytes (m : Memory) (a : Nat) : List Byte → Except Nat Memory
  | [] => .ok m
  | v :: vs =>
    match memWrite m a v with
    | .error e => .error e
    | .ok m' => memWriteBytes m' (a + 1) vs

/-- `Fetch(a)` (R64): the big-endian word at `a`, or none above 0xFFE. -/
def fetch (m : Memory) (a : Word) : Option Word :=
  if a.toNat ≤ 0xFFE then some (m.read a.toNat ++ m.read (a.toNat + 1)) else none

/-! ### Registers -/

/-- `V[x]` (R10). -/
def State.reg (s : State) (x : Nibble) : Byte := s.V[x.toNat]'x.isLt

/-- `V[x] <- v` (R10). -/
def State.setReg (s : State) (x : Nibble) (v : Byte) : State := { s with V := s.V.set x.toNat v x.isLt }

/-- VF, the flag register (R22). -/
def VF : Nibble := 0xF#4

/-- The registers V0..VX in order, as FX55 stores them (R224). -/
def State.regsUpTo (s : State) (x : Nibble) : List Byte := s.V.toList.take (x.toNat + 1)

/-- V[k] becomes the k-th byte for as many bytes as there are (R225). -/
def State.setRegsFrom0 (s : State) (bs : List Byte) : State :=
  { s with V := Vector.ofFn fun k : Fin 16 => bs.getD k.val (s.V[k.val]) }

/-- `I <- v`. -/
def State.setI (s : State) (v : Word) : State := { s with I := v }

/-- `pc <- target` (R10). -/
def State.setPc (s : State) (target : Word) : State := { s with pc := target }

/-- `DT <- v`. -/
def State.setDT (s : State) (v : Byte) : State := { s with DT := v }

/-- `ST <- v`. -/
def State.setST (s : State) (v : Byte) : State := { s with ST := v }

/-- The call stack replaced. -/
def State.setStack (s : State) (st : List Word) : State := { s with stack := st }

/-- `push(v)` (R10). -/
def State.push (s : State) (v : Word) : State := s.setStack (v :: s.stack)

/-- The memory replaced. -/
def State.setMem (s : State) (m : Memory) : State := { s with mem := m }

/-- The framebuffer replaced by 00E0 or DXYN, which sets `fb_dirty` (R31, D21). -/
def State.paint (s : State) (fb : Framebuffer) : State := { s with fb := fb, fbDirty := true }

/-- The driver state replaced (R30). -/
def State.setRun (s : State) (r : RunState) : State := { s with run := r }

/-! ### Outputs -/

/-- `report Legacy(info)`: one more record on `out.report`, nothing else (R307). -/
def State.report (s : State) (r : LegacyReport) : State := { s with reports := s.reports ++ [r] }

/-- The pixels as `out.fb_snapshot` carries them, indexed y * 64 + x (R321). -/
def Framebuffer.snapshot (fb : Framebuffer) : Snapshot :=
  Vector.ofFn fun i : Fin 2048 => (fb[i.val % 64]'(by omega))[i.val / 64]'(by omega)

/-- The hand-off: a copy goes out and `fb_dirty <- false` (R321). -/
def State.handOff (s : State) : State := { s with fbSnapshot := some (Framebuffer.snapshot s.fb), fbDirty := false }

/-! ### Draws from the environment -/

/-- `in.rand` at this step: the pending byte, else a free value (R327, log 3). -/
def State.randNow (s : State) : Byte := s.randIn.headD (Config.randByte s.draws)

/-- The draw of `in.rand` made: the next one is a fresh draw. -/
def State.takeRand (s : State) : State := { s with randIn := s.randIn.tail, draws := s.draws + 1 }

/-- `in.keys` at this step: the pending snapshot, else a free value (R325, log 3). -/
def State.keysNow (s : State) : KeySnapshot := s.keysIn.headD (Config.keysDown s.draws)

/-- The draw of `in.keys` made: the next one is a fresh draw. -/
def State.takeKeys (s : State) : State := { s with keysIn := s.keysIn.tail, draws := s.draws + 1 }

/-! ### Turns (R324, log 2) -/

/-- The turn that is next: the first one listed, else the first of the cycle, else a free one. -/
def Agenda.next (g : Agenda) : Turn := (g.listed ++ g.cycle).headD (Config.freeTurn g.freeTurns)

/-- The agenda once that turn is taken. -/
def Agenda.rest (g : Agenda) : Agenda :=
  match g.listed, g.cycle with
  | _ :: ts, _ => { g with listed := ts }
  | [], _ :: ts => { g with listed := ts }
  | [], [] => { g with freeTurns := g.freeTurns + 1 }

/-- The agenda replaced. -/
def State.setAgenda (s : State) (g : Agenda) : State := { s with agenda := g }

/-- Only the core has turns from here on. -/
def State.coreAlone (s : State) : State := s.setAgenda { s.agenda with listed := [], cycle := [.core] }

/-! ### Fault entry -/

/-- `run <- Halted(reason)` and nothing else (R309). -/
def State.halt (s : State) (r : HaltReason) : State := s.setRun (.halted r)

/-- `raise Fatal(kind, info)` in an instruction's execute phase: the ONE fault entry. The machine's next state is the
state as the instruction found it, halted, with none of the instruction's own writes (R11, R309). There is no return
from it (R311). -/
def takeFault (s : State) (r : HaltReason) : Host.Outcome State Fault Refusal := .next (s.halt r)

/-! ### Program load -/

/-- `load`: the image from 0x200 upward, bytes beyond 0xFFF dropped (R352, D33). -/
def State.loadProgram (s : State) (image : List Byte) : State :=
  s.setMem (s.mem.writeFrom 0x200 (image.take 0xE00))

/-- Boot (R353): power-on, then the program load, before any agent's step. -/
def State.boot (image : List Byte) : State := State.reset.loadProgram image

end Sys2Proof.Machine
end

