-- ==== Sys2Proof/Machine/Agents.lean ====
section
/-! DEFINITION. The steps of the agents beside the core (spec/60_exceptions.md R314, R320, R321; spec/44_timers_keys.md
R276) and the output ports (R323). Where a step is not enabled, it leaves the state as it is. -/

namespace Sys2Proof.Machine

/-- Not halted: the timer, redraw and quit steps are enabled (R310, R314, R320, R321). -/
def State.alive (s : State) : Bool :=
  match s.run with
  | .running => true
  | .waitingForKey _ => true
  | .halted _ => false

/-- `if T > 0 then T <- T - 1` (R320). -/
def countDown (t : Byte) : Byte := if t = 0x00#8 then 0x00#8 else t - 1#8

/-- The timer's tick: both timers in one step (R320, D37). -/
def timerTick (s : State) : State :=
  if s.alive then (s.setDT (countDown s.DT)).setST (countDown s.ST) else s

/-- The redraw hand-off (R321). -/
def redrawStep (s : State) : State := if s.alive then s.handOff else s

/-- The host's quit request (R314). -/
def quitStep (s : State) : State := if s.alive then s.halt .quit else s

/-- A key-press event: it completes a wait (R276) and has no effect otherwise (R326, D41). -/
def keyPressStep (k : Nibble) (s : State) : State :=
  match s.run with
  | .waitingForKey x => (s.setReg x (k.setWidth 8)).setRun .running
  | .running => s
  | .halted _ => s

/-! ### Output ports (R323), each a function of the state -/

/-- `out.sound_active` (D23). -/
def State.soundActive (s : State) : Bool := s.ST != 0x00#8

/-- `out.delay_active` (D23). -/
def State.delayActive (s : State) : Bool := s.DT != 0x00#8

/-- `out.fb_dirty`. -/
def State.outFbDirty (s : State) : Bool := s.fbDirty

/-- `out.waiting_for_key`. -/
def State.waitingForKeyOut (s : State) : Bool :=
  match s.run with
  | .waitingForKey _ => true
  | .running => false
  | .halted _ => false

/-- `out.halt_reason`. -/
def State.haltReason (s : State) : Option HaltReason :=
  match s.run with
  | .halted r => some r
  | .running => none
  | .waitingForKey _ => none

/-- `out.halted`. -/
def State.haltedOut (s : State) : Bool := s.haltReason.isSome

/-- The numeric code of a fatal reason (R300, D34). -/
def haltCode : HaltReason → Nat
  | .decodeFailure _ _ => 1
  | .stackOverflow _ => 2
  | .stackUnderflow _ => 3
  | .pcOutOfRange _ => 4
  | .memoryOutOfRange _ _ => 5
  | .keyIndexOutOfRange _ _ => 6
  | .quit => 7

/-- The code column of the table of R300: 0 for the recoverable report, 1 to 7 for the fatal reasons (D34). -/
def failureCode : Failure → Nat
  | .legacy _ => 0
  | .fatal r => haltCode r

end Sys2Proof.Machine
end

