-- ==== Sys2Proof/Machine/Flags.lean ====
section
/-! DEFINITION. The flag computations of the flag-writing ALU operations and the one way they write VF
(spec/41_alu.md R170, R183; spec/10_state.md R23). -/

namespace Sys2Proof.Machine

/-- A flag as VF holds it: true = 1, false = 0 (R9). -/
def flagByte (b : Bool) : Byte := if b then 0x01#8 else 0x00#8

/-- The carry out of the 8-bit add: `vx + vy > 255` on the integers (R177). -/
def carryOut (vx vy : Byte) : Bool := decide (255 < vx.toNat + vy.toNat)

/-- `borrow = (m < s)` of the subtraction `m - s` (R183). -/
def borrowOf (m s : Byte) : Bool := decide (m.toNat < s.toNat)

/-- `SUB_VF_POLARITY = borrow` (R183, D8, C1). -/
def subVfPolarity : Config.SubVfPolarity := .borrow

/-- `sub_flag` under a polarity (R183). -/
def subFlag (p : Config.SubVfPolarity) (borrow : Bool) : Bool :=
  match p with
  | .borrow => borrow
  | .noBorrow => !borrow

/-- Bit 0, which a right shift pushes out (R179). -/
def shiftedOutLow (v : Byte) : Bool := v.getLsbD 0

/-- Bit 7, which a left shift pushes out (R181). -/
def shiftedOutHigh (v : Byte) : Bool := v.getLsbD 7

/-- The result to V[X], then the flag to VF, last: with X = F the flag stays (R170, D10). -/
def State.writeWithFlag (s : State) (x : Nibble) (result : Byte) (flag : Bool) : State :=
  (s.setReg x result).setReg VF (flagByte flag)

end Sys2Proof.Machine
end

