-- ==== Sys2Proof/Machine/Alu.lean ====
section
/-! DEFINITION. The instructions of spec/41_alu.md. Both operands are read before any write (R170); none can fault. -/

namespace Sys2Proof.Machine

/-- LD Vx, NN (R171). -/
def execLdImm (x : Nibble) (nn : Byte) (s : State) : Host.Outcome State Fault Refusal :=
  .next (s.setReg x nn)

/-- ADD Vx, NN (R172): modulo 256, no flag. -/
def execAddImm (x : Nibble) (nn : Byte) (s : State) : Host.Outcome State Fault Refusal :=
  .next (s.setReg x (s.reg x + nn))

/-- LD Vx, Vy (R173). -/
def execLdReg (x y : Nibble) (s : State) : Host.Outcome State Fault Refusal :=
  .next (s.setReg x (s.reg y))

/-- OR Vx, Vy (R174). -/
def execOrReg (x y : Nibble) (s : State) : Host.Outcome State Fault Refusal :=
  .next (s.setReg x (s.reg x ||| s.reg y))

/-- AND Vx, Vy (R175). -/
def execAndReg (x y : Nibble) (s : State) : Host.Outcome State Fault Refusal :=
  .next (s.setReg x (s.reg x &&& s.reg y))

/-- XOR Vx, Vy (R176). -/
def execXorReg (x y : Nibble) (s : State) : Host.Outcome State Fault Refusal :=
  .next (s.setReg x (s.reg x ^^^ s.reg y))

/-- ADD Vx, Vy (R177). -/
def execAddReg (x y : Nibble) (s : State) : Host.Outcome State Fault Refusal :=
  .next (s.writeWithFlag x (s.reg x + s.reg y) (carryOut (s.reg x) (s.reg y)))

/-- SUB Vx, Vy (R178). -/
def execSub (x y : Nibble) (s : State) : Host.Outcome State Fault Refusal :=
  .next (s.writeWithFlag x (s.reg x - s.reg y) (subFlag subVfPolarity (borrowOf (s.reg x) (s.reg y))))

/-- SHR Vx (R179): logical; Y is don't-care (R99). -/
def execShr (x _y : Nibble) (s : State) : Host.Outcome State Fault Refusal :=
  .next (s.writeWithFlag x (s.reg x >>> 1) (shiftedOutLow (s.reg x)))

/-- SUBN Vx, Vy (R180). -/
def execSubn (x y : Nibble) (s : State) : Host.Outcome State Fault Refusal :=
  .next (s.writeWithFlag x (s.reg y - s.reg x) (subFlag subVfPolarity (borrowOf (s.reg y) (s.reg x))))

/-- SHL Vx (R181): modulo 256; Y is don't-care (R99). -/
def execShl (x _y : Nibble) (s : State) : Host.Outcome State Fault Refusal :=
  .next (s.writeWithFlag x (s.reg x <<< 1) (shiftedOutHigh (s.reg x)))

/-- RND Vx, NN (R182): a draw of `in.rand`, masked; no flag. -/
def execRnd (x : Nibble) (nn : Byte) (s : State) : Host.Outcome State Fault Refusal :=
  .next (s.takeRand.setReg x (s.randNow &&& nn))

end Sys2Proof.Machine
end

