-- ==== Sys2Proof/Machine/Operands.lean ====
section
/-! DEFINITION. The operand forms: addresses made from fields and registers, the skip, the key query, the decimal digits
and the advance of I that a parameter controls. -/

namespace Sys2Proof.Machine

/-- `zext_16(NNN)` (R92). -/
def addrOf (nnn : Addr12) : Word := nnn.setWidth 16

/-- `zext_16(V[x])` (R139, R221). -/
def State.regWide (s : State) (x : Nibble) : Word := (s.reg x).setWidth 16

/-- The jump-with-offset target `zext_16(NNN) + zext_16(V[0])`, never cut to 12 bits (R139, D32). -/
def State.offsetTarget (s : State) (nnn : Addr12) : Word := addrOf nnn + s.regWide 0x0#4

/-- The effective address of byte 0 of an access through I, an integer (R66). -/
def State.indexAddr (s : State) : Nat := s.I.toNat

/-- `FONT_ADDR(v)`, OPEN (R222, D12). -/
def glyphAddr (v : Byte) : Word := Config.fontAddr v

/-- The hundreds, tens and units of a byte (R223). -/
def decimalDigits (v : Byte) : List Byte :=
  [BitVec.ofNat 8 (v.toNat / 100), BitVec.ofNat 8 (v.toNat / 10 % 10), BitVec.ofNat 8 (v.toNat % 10)]

/-- `LOADSTORE_INC_I = false` (R6, R224, D28). -/
def loadStoreIncI : Bool := false

/-- `if LOADSTORE_INC_I then I <- (I + X + 1) mod 2^16` (R224, R225). -/
def State.blockAdvance (s : State) (inc : Bool) (x : Nibble) : State :=
  if inc then s.setI (s.I + x.setWidth 16 + 1#16) else s

/-- `if c then pc <- pc + 2` (R140): the word after the next is run instead of the next. -/
def State.skipIf (s : State) (c : Bool) : State := if c then s.setPc (s.pc + 2#16) else s

/-- The key query of EX9E and EXA1 (R273, R274): fault when V[X] names no key, else draw the key snapshot and skip when
key V[X] is down (`down = true`) or up (`down = false`). -/
def keySkip (down : Bool) (x : Nibble) (s : State) : Host.Outcome State Fault Refusal :=
  if h : (s.reg x).toNat < 16 then
    .next (s.takeKeys.skipIf (s.keysNow[(s.reg x).toNat] == down))
  else takeFault s (.keyIndexOutOfRange (s.reg x) s.pc)

end Sys2Proof.Machine
end

