-- ==== Sys2Proof/Machine/ControlFlow.lean ====
section
/-! DEFINITION. The instructions of spec/40_control_flow.md. Each meaning is the execute phase: `s.pc` already holds the
fetch address + 2 (R131, R133). -/

namespace Sys2Proof.Machine

/-- SYS NNN (R135): a report with the word, the fetch address and NNN; nothing else. The word of a family-0 instruction
is NNN itself. -/
def execSys (nnn : Addr12) (s : State) : Host.Outcome State Fault Refusal :=
  .next (s.report ⟨addrOf nnn, s.pc - 2#16, nnn⟩)

/-- RET (R136, R303). -/
def execRet (s : State) : Host.Outcome State Fault Refusal :=
  match s.stack with
  | [] => takeFault s (.stackUnderflow s.pc)
  | top :: rest => .next ((s.setStack rest).setPc top)

/-- JP NNN (R137). -/
def execJp (nnn : Addr12) (s : State) : Host.Outcome State Fault Refusal :=
  .next (s.setPc (addrOf nnn))

/-- CALL NNN (R138, R302): pushes the address of the next instruction. The stack never holds more than 16 entries, so
"16 or more" is the rule's "16". -/
def execCall (nnn : Addr12) (s : State) : Host.Outcome State Fault Refusal :=
  if 16 ≤ s.stack.length then takeFault s (.stackOverflow s.pc)
  else .next ((s.push s.pc).setPc (addrOf nnn))

/-- JP V0, NNN (R139). -/
def execJpV0 (nnn : Addr12) (s : State) : Host.Outcome State Fault Refusal :=
  .next (s.setPc (s.offsetTarget nnn))

/-- SE Vx, NN (R140). -/
def execSeImm (x : Nibble) (nn : Byte) (s : State) : Host.Outcome State Fault Refusal :=
  .next (s.skipIf (s.reg x == nn))

/-- SNE Vx, NN (R141). -/
def execSneImm (x : Nibble) (nn : Byte) (s : State) : Host.Outcome State Fault Refusal :=
  .next (s.skipIf (s.reg x != nn))

/-- SE Vx, Vy (R142). -/
def execSeReg (x y : Nibble) (s : State) : Host.Outcome State Fault Refusal :=
  .next (s.skipIf (s.reg x == s.reg y))

/-- SNE Vx, Vy (R143). -/
def execSneReg (x y : Nibble) (s : State) : Host.Outcome State Fault Refusal :=
  .next (s.skipIf (s.reg x != s.reg y))

end Sys2Proof.Machine
end

