-- ==== Sys2Proof/Machine/Display.lean ====
section
/-! DEFINITION. The framebuffer instructions and the pixel write logic (spec/43_display.md), as the pseudocode of R251
runs them: row by row, column by column. -/

namespace Sys2Proof.Machine

/-- `fb[x][y]` (R28). -/
def Framebuffer.pixel (fb : Framebuffer) (x : Fin 64) (y : Fin 32) : Bool := fb[x.val][y.val]

/-- `fb[x][y] <- p`. -/
def Framebuffer.setPixel (fb : Framebuffer) (x : Fin 64) (y : Fin 32) (p : Bool) : Framebuffer :=
  fb.set x.val (fb[x.val].set y.val p)

/-- `pixel_xor(p) = (not p, p)`: the new pixel and the hit (R252). -/
def pixelXor (p : Bool) : Bool × Bool := (!p, p)

/-- What a draw has made so far: the framebuffer and the collision. -/
structure Canvas where
  fb : Framebuffer
  collision : Bool
deriving DecidableEq, Repr

/-- One sprite bit at column x and row y: clipped past either edge (R253), nothing for a 0 bit, else `pixel_xor`
(R252). -/
def Canvas.plot (c : Canvas) (x y : Nat) (bit : Bool) : Canvas :=
  if h : x < 64 ∧ y < 32 then
    if bit then
      let p := pixelXor (c.fb.pixel ⟨x, h.1⟩ ⟨y, h.2⟩)
      ⟨c.fb.setPixel ⟨x, h.1⟩ ⟨y, h.2⟩ p.1, c.collision || p.2⟩
    else c
  else c

/-- Bit `7 - col` of a row: bit 7 is the leftmost pixel (R251, D17). -/
def spriteBit (row : Byte) (col : Nat) : Bool := row.getLsbD (7 - col)

/-- The 8 pixels of one sprite row, from column x0, at row y. -/
def Canvas.drawRow (c : Canvas) (x0 y : Nat) (row : Byte) : Canvas :=
  (List.range 8).foldl (fun c col => c.plot (x0 + col) y (spriteBit row col)) c

/-- The rows of a sprite from row y downward. -/
def Canvas.drawRows (c : Canvas) (x0 y : Nat) : List Byte → Canvas
  | [] => c
  | row :: rows => (c.drawRow x0 y row).drawRows x0 (y + 1) rows

/-- CLS (R250): VF is not written. -/
def execCls (s : State) : Host.Outcome State Fault Refusal :=
  .next (s.paint Framebuffer.blank)

/-- The start column `V[X] mod 64` (R251, R253). -/
def State.startColumn (s : State) (x : Nibble) : Nat := (s.reg x).toNat % 64

/-- The start row `V[Y] mod 32` (R251, R253). -/
def State.startRow (s : State) (y : Nibble) : Nat := (s.reg y).toNat % 32

/-- DRW Vx, Vy, N (R251): every row is read before anything is drawn, clipped or not (D19); VF is written last. -/
def execDrw (x y n : Nibble) (s : State) : Host.Outcome State Fault Refusal :=
  match memReadBytes s.mem s.indexAddr n.toNat with
  | .error a => takeFault s (.memoryOutOfRange a s.pc)
  | .ok rows =>
    let c := Canvas.drawRows ⟨s.fb, false⟩ (s.startColumn x) (s.startRow y) rows
    .next ((s.paint c.fb).setReg VF (flagByte c.collision))

end Sys2Proof.Machine
end

