-- ==== Sys2Proof/Machine/IndexMemory.lean ====
section
/-! DEFINITION. The instructions of spec/42_index_memory.md. -/

namespace Sys2Proof.Machine

/-- LD I, NNN (R220). -/
def execLdI (nnn : Addr12) (s : State) : Host.Outcome State Fault Refusal :=
  .next (s.setI (addrOf nnn))

/-- ADD I, Vx (R221): modulo 2^16, no flag. -/
def execAddI (x : Nibble) (s : State) : Host.Outcome State Fault Refusal :=
  .next (s.setI (s.I + s.regWide x))

/-- LD F, Vx (R222): reads no key state (C6). -/
def execLdF (x : Nibble) (s : State) : Host.Outcome State Fault Refusal :=
  .next (s.setI (glyphAddr (s.reg x)))

/-- LD B, Vx (R223). -/
def execLdB (x : Nibble) (s : State) : Host.Outcome State Fault Refusal :=
  match memWriteBytes s.mem s.indexAddr (decimalDigits (s.reg x)) with
  | .error a => takeFault s (.memoryOutOfRange a s.pc)
  | .ok m => .next (s.setMem m)

/-- LD [I], Vx (R224). -/
def execStore (x : Nibble) (s : State) : Host.Outcome State Fault Refusal :=
  match memWriteBytes s.mem s.indexAddr (s.regsUpTo x) with
  | .error a => takeFault s (.memoryOutOfRange a s.pc)
  | .ok m => .next ((s.setMem m).blockAdvance loadStoreIncI x)

/-- LD Vx, [I] (R225). -/
def execLoad (x : Nibble) (s : State) : Host.Outcome State Fault Refusal :=
  match memReadBytes s.mem s.indexAddr (x.toNat + 1) with
  | .error a => takeFault s (.memoryOutOfRange a s.pc)
  | .ok bs => .next ((s.setRegsFrom0 bs).blockAdvance loadStoreIncI x)

end Sys2Proof.Machine
end

