-- ==== Sys2Proof/Machine/TimersKeys.lean ====
section
/-! DEFINITION. The instructions of spec/44_timers_keys.md. The tick and the key-press step are in Machine/Agents.lean. -/

namespace Sys2Proof.Machine

/-- LD Vx, DT (R270). -/
def execLdFromDT (x : Nibble) (s : State) : Host.Outcome State Fault Refusal :=
  .next (s.setReg x s.DT)

/-- LD DT, Vx (R271). -/
def execLdDT (x : Nibble) (s : State) : Host.Outcome State Fault Refusal :=
  .next (s.setDT (s.reg x))

/-- LD ST, Vx (R272). -/
def execLdST (x : Nibble) (s : State) : Host.Outcome State Fault Refusal :=
  .next (s.setST (s.reg x))

/-- SKP Vx (R273). -/
def execSkp (x : Nibble) (s : State) : Host.Outcome State Fault Refusal :=
  keySkip true x s

/-- SKNP Vx (R274). -/
def execSknp (x : Nibble) (s : State) : Host.Outcome State Fault Refusal :=
  keySkip false x s

/-- LD Vx, K (R275): the wait begins; V[X] is written by the key-press step (R276). -/
def execLdKey (x : Nibble) (s : State) : Host.Outcome State Fault Refusal :=
  .next (s.setRun (.waitingForKey x))

end Sys2Proof.Machine
end

