-- ==== Sys2Proof/Machine/Cycle.lean ====
section
/-! DEFINITION. The instruction step (spec/40_control_flow.md R130 to R134) and the turn of the agents
(spec/60_exceptions.md R324). -/

namespace Sys2Proof.Machine

/-- Decode and execute a word fetched at `a`, on the state whose pc already holds a + 2 (R132, R133, R301). -/
def decodeAndExecute (a w : Word) (s : State) : Host.Outcome State Fault Refusal :=
  match decode w with
  | .error _ => takeFault s (.decodeFailure w a)
  | .ok i => exec i s

/-- One instruction of a running core (R131): fetch at pc, else PcOutOfRange with pc kept (R304); the advance is committed
before decode. -/
def instructionStep (s : State) : Host.Outcome State Fault Refusal :=
  match fetch s.mem s.pc with
  | none => takeFault s (.pcOutOfRange s.pc)
  | some w => decodeAndExecute s.pc w (s.setPc (s.pc + 2#16))

/-- The core's turn (R130, R134): an instruction when Running; a waiting core has no step, so nothing changes. -/
def coreTurn (s : State) : Host.Outcome State Fault Refusal :=
  match s.run with
  | .running => instructionStep s
  | .waitingForKey _ => .next s
  | .halted r => .fault (.halted r)

/-- One atomic step of the agent that has the turn (R324). -/
def takeTurn (t : Turn) (s : State) : Host.Outcome State Fault Refusal :=
  match t with
  | .core => coreTurn s
  | .tick => .next (timerTick s)
  | .redraw => .next (redrawStep s)
  | .keyPress k => .next (keyPressStep k s)
  | .quit => .next (quitStep s)

/-- The machine's step. Halted: no agent has a step (R310, log 1). Otherwise the agent whose turn is
next on the agenda takes it (R324, log 2). -/
def machineStep (s : State) : Host.Outcome State Fault Refusal :=
  match s.run with
  | .halted r => .fault (.halted r)
  | .running | .waitingForKey _ => takeTurn s.agenda.next (s.setAgenda s.agenda.rest)

/-- Where the next instruction is fetched: pc, or the program base where no word could be fetched at pc (R64, R68). -/
def fetchAddress (s : State) : Word := if s.pc.toNat ≤ 0xFFE then s.pc else 0x0200#16

/-- A running core that has every turn from here on, and the bytes of one instruction at its fetch address. -/
def placeInstruction (s : State) (bytes : List Byte) : State :=
  let a := fetchAddress s
  (((s.setRun .running).coreAlone).setPc a).setMem (s.mem.writeFrom a.toNat bytes)

end Sys2Proof.Machine
end

