-- ==== Sys2Proof/Machine/Step.lean ====
section
/-! DEFINITION. The machine's one step, and how the host places an instruction for it. -/

namespace Sys2Proof.Machine

/-- One atomic step (R324). -/
def step (s : State) : Host.Outcome State Fault Refusal := machineStep s

/-- `s` with the instruction of `nbits` bits whose bits are `w` where `step` fetches next, big-endian (R63), and the core
about to run it. A program comes to run by the loader, outside the machine (R352, R353, log 9). -/
def State.withFetchWord (s : State) (nbits w : Nat) : State :=
  placeInstruction s (wordBytes (BitVec.ofNat 16 (w % 2 ^ nbits)))

end Sys2Proof.Machine
end

