-- ==== Sys2Proof/Safety.lean ====
section
/-! DEFINITION. The terms claims are made in: which parts of the state a step left alone, how an instruction halts the
machine, the invariant of the machine, what a halt record says, and which runs are safe. -/

namespace Sys2Proof.Machine

/-! ### Frames -/

/-- The parts of the state, for saying what did not change. -/
inductive Part where
  | regs | index | pc | stack | mem | fb | delay | sound | run | dirty | reports | snapshot | agenda | rand | keys | draws
deriving DecidableEq, Repr

/-- The part is as it was: a register or a byte of memory by the model's own read of it. -/
def Part.same (p : Part) (s t : State) : Prop :=
  match p with
  | .regs => ∀ r : Nibble, t.reg r = s.reg r
  | .index => t.I = s.I
  | .pc => t.pc = s.pc
  | .stack => t.stack = s.stack
  | .mem => ∀ a : Nat, t.mem.read a = s.mem.read a
  | .fb => ∀ (x : Fin 64) (y : Fin 32), Framebuffer.pixel t.fb x y = Framebuffer.pixel s.fb x y
  | .delay => t.DT = s.DT
  | .sound => t.ST = s.ST
  | .run => t.run = s.run
  | .dirty => t.fbDirty = s.fbDirty
  | .reports => t.reports = s.reports
  | .snapshot => t.fbSnapshot = s.fbSnapshot
  | .agenda => t.agenda = s.agenda
  | .rand => t.randIn = s.randIn
  | .keys => t.keysIn = s.keysIn
  | .draws => t.draws = s.draws

/-- Every part outside the list is as it was. -/
def OnlyChanges (ps : List Part) (s t : State) : Prop := ∀ p : Part, p ∉ ps → p.same s t

/-- Every register outside the list is as it was. -/
def RegsKeptBut (xs : List Nibble) (s t : State) : Prop := ∀ r : Nibble, r ∉ xs → t.reg r = s.reg r

/-! ### Halting -/

/-- The outcome is a fault entry (R309): the next state is `s` halted with this reason, and nothing else of it changed. -/
def HaltsWith (o : Host.Outcome State Fault Refusal) (s : State) (r : HaltReason) : Prop :=
  ∃ t, o = .next t ∧ t.run = .halted r ∧ OnlyChanges [.run] s t

/-- What a halt record says of the state it stands in (R300 to R306): the recorded pc is the state's own, but for a decode
failure, which names the fetch address the word came from; and the condition that raises the fault holds. -/
def HaltReason.Explains (r : HaltReason) (s : State) : Prop :=
  match r with
  | .decodeFailure w a => s.pc = a + 2#16 ∧ fetch s.mem a = some w ∧ ∃ e, decode w = .error e
  | .stackOverflow p => s.pc = p ∧ 16 ≤ s.stack.length
  | .stackUnderflow p => s.pc = p ∧ s.stack = []
  | .pcOutOfRange p => s.pc = p ∧ 0xFFE < p.toNat
  | .memoryOutOfRange a p => s.pc = p ∧ a = max 0x1000 s.I.toNat
  | .keyIndexOutOfRange k p => s.pc = p ∧ 0xF < k.toNat ∧ ∃ x, s.reg x = k
  | .quit => True

/-- A halted state's record is true of it. -/
def State.HaltExplained (s : State) : Prop := ∀ r, s.run = .halted r → r.Explains s

/-! ### The invariant -/

/-- What holds of every state a run can reach: memory is canonical (log 5), the call stack holds at most 16 entries
(R26), each of them an address after a fetched word (R131, R138), and pc is at most 0x10FE (R25). -/
def State.Inv (s : State) : Prop :=
  s.mem.wf = true ∧ s.stack.length ≤ 16 ∧ (∀ e ∈ s.stack, e.toNat ≤ 0x1000) ∧ s.pc.toNat ≤ 0x10FE

/-! ### Runs -/

/-- `t` is reached from `s` by steps of the machine. -/
inductive Reaches (s : State) : State → Prop where
  | start : Reaches s s
  | after {t u : State} (h : Reaches s t) (hs : step t = .next u) : Reaches s u

/-- A machine booted with an image (R353), facing an environment: any interleaving of the agents, any pending random bytes
and key snapshots. -/
def State.bootIn (image : List Byte) (turns : Agenda) (rand : List Byte) (keys : List KeySnapshot) : State :=
  { State.boot image with agenda := turns, randIn := rand, keysIn := keys }

/-- A state that no fault has halted: a quit is a clean shutdown (R300, R314). -/
def State.Unfaulted (s : State) : Prop := ∀ r, s.run = .halted r → r = .quit

/-- A safe run: no state it reaches was halted by a fault. -/
def SafeFrom (s : State) : Prop := ∀ t, Reaches s t → t.Unfaulted

/-! ### Turns -/

/-- The turn `a` is next on the agenda `g`, and `g'` is what is left of it: `a` is listed first, or it begins the cycle and
nothing is listed, or there is neither and it is the free turn (log 2). -/
def Agenda.Yields (g : Agenda) (a : Turn) (g' : Agenda) : Prop :=
  (∃ ts, g.listed = a :: ts ∧ g' = ⟨ts, g.cycle, g.freeTurns⟩) ∨
  (g.listed = [] ∧ ∃ ts, g.cycle = a :: ts ∧ g' = ⟨ts, g.cycle, g.freeTurns⟩) ∨
  (g.listed = [] ∧ g.cycle = [] ∧ Config.freeTurn g.freeTurns = a ∧ g' = ⟨[], [], g.freeTurns + 1⟩)

/-- The agent `a` has the turn in `s` (R324), and `u` is `s` with that turn taken. -/
def HasTurn (a : Turn) (s u : State) : Prop := ∃ g, s.agenda.Yields a g ∧ u = s.setAgenda g

/-- The turn `a` stands somewhere on the agenda: nothing else can ever be a turn. -/
def Agenda.MayYield (g : Agenda) (a : Turn) : Prop :=
  a ∈ g.listed ∨ a ∈ g.cycle ∨ (g.cycle = [] ∧ ∃ n, g.freeTurns ≤ n ∧ Config.freeTurn n = a)

/-- The timer has infinitely many turns: the fairness of R324, for a machine that does not halt. -/
def Agenda.FairToTimer (g : Agenda) : Prop :=
  .tick ∈ g.cycle ∨ (g.cycle = [] ∧ ∀ k, ∃ n, k ≤ n ∧ Config.freeTurn n = .tick)

/-- Neither a key press nor a quit is ever to come. -/
def Agenda.LeavesWaiting (g : Agenda) : Prop := ∀ a, g.MayYield a → a = .core ∨ a = .tick ∨ a = .redraw

/-- The timer, redraw and host agents are enabled (R314, R320, R321): the machine is Running or WaitingForKey. -/
def NotHalted (s : State) : Prop := s.run = .running ∨ ∃ x, s.run = .waitingForKey x

/-! ### Instructions as the rules name them -/

/-- The word is illegal (R96, R97). -/
def illegalWord (w : Word) : Bool :=
  match decode w with
  | .ok _ => false
  | .error _ => true

/-- How many of the 4096 words of a family are illegal (R97; the table of 95_test_vectors.md V-DEC). -/
def illegalInFamily (op : Nibble) : Nat :=
  match op.toNat with
  | 0x0 => 1
  | 0x5 => 3840
  | 0x8 => 1792
  | 0x9 => 3840
  | 0xE => 4064
  | 0xF => 3952
  | _ => 0

/-- The word stands for the instruction, both ways (the "Encoding" line of an instruction's rule). -/
def Encodes (w : Word) (i : Instr) : Prop := encode i = w ∧ decode w = .ok i

/-- The sprite of DXYN covers pixel (px, py) with a 1 bit (R251, R253): row py - y0 of the `n` rows at `base`, bit
7 - (px - x0) of it, no wrap at an edge. -/
def SpriteCovers (m : Memory) (base x0 y0 n : Nat) (px : Fin 64) (py : Fin 32) : Prop :=
  x0 ≤ px.val ∧ px.val < x0 + 8 ∧ y0 ≤ py.val ∧ py.val < y0 + n ∧
    (m.read (base + (py.val - y0))).getLsbD (7 - (px.val - x0)) = true

/-- The registers an instruction may write, with the flag (R21, R23). -/
def mayWriteReg (i : Instr) (r : Nibble) : Prop :=
  match i with
  | .ldImm x _ | .addImm x _ | .ldReg x _ | .orReg x _ | .andReg x _ | .xorReg x _ => r = x
  | .addReg x _ | .sub x _ | .shr x _ | .subn x _ | .shl x _ => r = x ∨ r = 0xF#4
  | .rnd x _ | .ldFromDT x => r = x
  | .drw _ _ _ => r = 0xF#4
  | .load x => r.toNat ≤ x.toNat
  | .cls | .ret | .sys _ | .jp _ | .call _ | .seImm _ _ | .sneImm _ _ | .seReg _ _ | .sneReg _ _ => False
  | .ldI _ | .jpV0 _ | .skp _ | .sknp _ | .ldKey _ | .ldDT _ | .ldST _ | .addI _ | .ldF _ | .ldB _ | .store _ => False

end Sys2Proof.Machine
end

