-- ==== Sys2Proof/Certificates/Slice0/Obligations.lean ====
section
/-! DEFINITION. The statements for the provers, file by file of spec/. A register value is read by `State.reg`, a byte of
memory by `Memory.read`, a pixel by `Framebuffer.pixel`; `OnlyChanges ps s t` says that every part of the state outside
`ps` is as it was. In the statements about `exec`, `s.pc` is the fetch address + 2 (R131, R133). What is the model's choice or
the spec's own and not its source's: the turn an agent takes is next on `agenda` (`HasTurn`, log 2); the `Encodes` clauses rest on
the patterns of R94, which the spec takes from general knowledge (its D4, log 14). -/

open Sys2Proof Sys2Proof.Machine

/-! ### Decoding and encoding (spec/30_encoding.md) -/

/-- Every well-formed instruction is what its word, and its bytes in memory, decode to. -/
def Obligations.DecodeInvertsEncode : Prop :=
  ∀ i : Instr, i.wf = true →
    decode (encode i) = .ok i ∧ ∀ rest : List Byte, decodeBytes (encodeBytes i ++ rest) = .ok (i, rest)

/-- A legal word is the encoding of the well-formed instruction it decodes to: decoding drops no bit. -/
def Obligations.EncodeInvertsDecode : Prop :=
  ∀ (w : Word) (i : Instr), decode w = .ok i → i.wf = true ∧ encode i = w

/-- The pseudocode of R95 and the table of R94 decode every word alike. -/
def Obligations.PseudocodeDecodesAsTable : Prop :=
  ∀ w : Word, (match decode w with | .ok i => some i | .error _ => none) = decodeByTable w

/-- The 35 rows of the table exclude one another (end of R94). -/
def Obligations.OpcodeRowsDisjoint : Prop :=
  opcodeTable.length = 35 ∧ opcodeTable.Pairwise fun r q => ∀ w : Word, ¬(r.hits w = true ∧ q.hits w = true)

/-- The illegal words are exactly those of R97, and there are as many as it says. -/
def Obligations.IllegalWordsExactly : Prop :=
  (∀ w : Word, illegalWord w = true ↔
    w = 0x0000#16 ∨
    ((fieldOp w = 0x5#4 ∨ fieldOp w = 0x9#4) ∧ fieldN w ≠ 0x0#4) ∨
    (fieldOp w = 0x8#4 ∧ fieldN w ∈ [0x8#4, 0x9#4, 0xA#4, 0xB#4, 0xC#4, 0xD#4, 0xF#4]) ∨
    (fieldOp w = 0xE#4 ∧ fieldNN w ∉ [0x9E#8, 0xA1#8]) ∨
    (fieldOp w = 0xF#4 ∧
      fieldNN w ∉ [0x07#8, 0x0A#8, 0x15#8, 0x18#8, 0x1E#8, 0x29#8, 0x33#8, 0x55#8, 0x65#8])) ∧
  (∀ op : Nibble,
    (List.range 4096).countP (fun k => illegalWord (op ++ BitVec.ofNat 12 k)) = illegalInFamily op) ∧
  ((List.range 16).map fun k => illegalInFamily (BitVec.ofNat 4 k)).sum = 17489 ∧ 65536 - 17489 = 48047

/-- The fields of a word from its four nibbles (R92); an address is used zero-extended. -/
def Obligations.FieldsOfNibbles : Prop :=
  ∀ n3 n2 n1 n0 : Nibble,
    let w : Word := n3 ++ n2 ++ n1 ++ n0
    fieldX w = n2 ∧ fieldY w = n1 ∧ fieldN w = n0 ∧ fieldNN w = n1 ++ n0 ∧
    (fieldNN w).toNat = n1.toNat * 16 + n0.toNat ∧
    fieldNNN w = (n2.setWidth 12 <<< 8) ||| (n1.setWidth 12 <<< 4) ||| n0.setWidth 12 ∧
    (addrOf (fieldNNN w)).toNat = n2.toNat * 256 + n1.toNat * 16 + n0.toNat

/-- Words of the V-DEC table of spec/95_test_vectors.md, one or more for each family that has legal and illegal words. That
0x0000 and 0x5121 are illegal is the spec's D5 and D6 (log 14). -/
def Obligations.DecodeSampleWords : Prop :=
  illegalWord 0x0000#16 = true ∧ decode 0x00E0#16 = .ok .cls ∧ decode 0x00EE#16 = .ok .ret ∧
  decode 0x00E1#16 = .ok (.sys 0x0E1#12) ∧ decode 0x1000#16 = .ok (.jp 0x000#12) ∧
  decode 0x5120#16 = .ok (.seReg 1 2) ∧ illegalWord 0x5121#16 = true ∧
  decode 0x8120#16 = .ok (.ldReg 1 2) ∧ decode 0x8127#16 = .ok (.subn 1 2) ∧
  decode 0x812E#16 = .ok (.shl 1 2) ∧ illegalWord 0x812D#16 = true ∧
  decode 0x9120#16 = .ok (.sneReg 1 2) ∧ decode 0xD000#16 = .ok (.drw 0 0 0) ∧
  decode 0xE09E#16 = .ok (.skp 0) ∧ illegalWord 0xE09F#16 = true ∧
  decode 0xF00A#16 = .ok (.ldKey 0) ∧ decode 0xFF65#16 = .ok (.load 15) ∧
  illegalWord 0xF030#16 = true

/-! ### The instruction step (spec/20_memory.md, spec/40_control_flow.md) -/

/-- A running core with the turn whose two bytes at pc decode to an instruction: the step is that instruction's execute
phase, with pc two further and the turn taken. -/
def Obligations.StepRunsDecodedInstruction : Prop :=
  ∀ (s u : State) (i : Instr), s.run = .running → HasTurn .core s u → s.pc.toNat ≤ 0xFFE →
    decode (bytesWord (s.mem.read s.pc.toNat) (s.mem.read (s.pc.toNat + 1))) = .ok i →
    step s = exec i (u.setPc (s.pc + 2#16))

/-- `Fetch` (R64): the big-endian word inside memory; beyond 0xFFE the step halts the machine and pc keeps its value
(R304). -/
def Obligations.FetchOrPcOutOfRange : Prop :=
  (∀ (m : Memory) (a : Word), a.toNat ≤ 0xFFE →
    ∃ w, fetch m a = some w ∧ w.toNat = (m.read a.toNat).toNat * 256 + (m.read (a.toNat + 1)).toNat) ∧
  (∀ s u : State, s.run = .running → HasTurn .core s u → 0xFFE < s.pc.toNat →
    HaltsWith (step s) u (.pcOutOfRange s.pc))

/-- An illegal word executes nothing: the machine halts with the word and its fetch address, the fetch advance stands and
nothing else changes. -/
def Obligations.IllegalWordHalts : Prop :=
  ∀ (s u : State) (w : Word), s.run = .running → HasTurn .core s u → fetch s.mem s.pc = some w →
    illegalWord w = true →
    ∃ t, step s = .next t ∧ t.run = .halted (.decodeFailure w s.pc) ∧ t.pc = s.pc + 2#16 ∧
      OnlyChanges [.run, .pc] u t

/-- While waiting for a key the core's turn fetches nothing and changes nothing, but that it is taken (log 10); halted there is
no step at all (log 1). -/
def Obligations.CoreWithoutStep : Prop :=
  (∀ (s u : State) (x : Nibble), s.run = .waitingForKey x → HasTurn .core s u →
    ∃ t, step s = .next t ∧ t.agenda = u.agenda ∧ OnlyChanges [.agenda] s t) ∧
  (∀ (s : State) (r : HaltReason), s.run = .halted r → step s = .fault (.halted r))

/-- A store is seen by the very next fetch of that byte, and by no fetch that does not touch it (R73). -/
def Obligations.FetchSeesStores : Prop :=
  ∀ (m : Memory) (a : Nat) (v : Byte) (p : Word), m.wf = true → a < 4096 → p.toNat ≤ 0xFFE →
    ∃ w w', fetch m p = some w ∧ fetch (m.write a v) p = some w' ∧
      (a = p.toNat → w' = bytesWord v (w.extractLsb' 0 8)) ∧
      (a = p.toNat + 1 → w' = bytesWord (w.extractLsb' 8 8) v) ∧
      (a ≠ p.toNat → a ≠ p.toNat + 1 → w' = w)

/-! ### Memory (spec/20_memory.md) -/

/-- In canonical memory a byte reads as it was last written, every other byte is untouched, and the form is kept. -/
def Obligations.MemoryReadAfterWrite : Prop :=
  ∀ (m : Memory) (a b : Nat) (v : Byte), m.wf = true → a < 4096 →
    (m.write a v).read b = (if b = a then v else m.read b) ∧ (m.write a v).wf = true

/-- Canonical memories with the same contents are the same list: equal memories are equal data. -/
def Obligations.CanonicalMemoryUnique : Prop :=
  ∀ m n : Memory, m.wf = true → n.wf = true → (∀ a, m.read a = n.read a) → m = n

/-- A block access is all or nothing, and names the lowest address out of range: MemRead and MemWrite of R61 and R62 on
the bytes a, a + 1, ... of R66. -/
def Obligations.BlockAccessAllOrNothing : Prop :=
  (∀ (m : Memory) (a n : Nat), (∀ k, k < n → a + k ≤ 0xFFF) →
    ∃ bs, memReadBytes m a n = .ok bs ∧ bs.length = n ∧ ∀ k, k < n → bs.getD k 0 = m.read (a + k)) ∧
  (∀ (m : Memory) (a n k : Nat), k < n → 0xFFF < a + k → (∀ j, j < k → a + j ≤ 0xFFF) →
    memReadBytes m a n = .error (a + k)) ∧
  (∀ (m : Memory) (a : Nat) (vs : List Byte), m.wf = true → (∀ k, k < vs.length → a + k ≤ 0xFFF) →
    ∃ m', memWriteBytes m a vs = .ok m' ∧ m'.wf = true ∧ (∀ k, k < vs.length → m'.read (a + k) = vs.getD k 0) ∧
      ∀ b, (b < a ∨ a + vs.length ≤ b) → m'.read b = m.read b) ∧
  (∀ (m : Memory) (a k : Nat) (vs : List Byte), k < vs.length → 0xFFF < a + k → (∀ j, j < k → a + j ≤ 0xFFF) →
    memWriteBytes m a vs = .error (a + k))

/-! ### Control transfer (spec/40_control_flow.md) -/

/-- SYS NNN (R135): one Legacy report of the word, the fetch address and NNN, and nothing else. The fetch address is read off
pc (log 11). -/
def Obligations.SysReportsOnly : Prop :=
  ∀ (s : State) (nnn : Addr12),
    (nnn ≠ 0x000#12 → nnn ≠ 0x0E0#12 → nnn ≠ 0x0EE#12 → Encodes (0x0#4 ++ nnn) (.sys nnn)) ∧
    ∃ t, exec (.sys nnn) s = .next t ∧ t.reports = s.reports ++ [⟨0x0#4 ++ nnn, s.pc - 2#16, nnn⟩] ∧
      OnlyChanges [.reports] s t

/-- RET (R136, R303): pops the top entry into pc; with an empty stack it halts the machine. -/
def Obligations.RetPopsOrUnderflows : Prop :=
  Encodes 0x00EE#16 .ret ∧
  (∀ (s : State) (top : Word) (rest : List Word), s.stack = top :: rest →
    ∃ t, exec .ret s = .next t ∧ t.pc = top ∧ t.stack = rest ∧ OnlyChanges [.pc, .stack] s t) ∧
  (∀ s : State, s.stack = [] → HaltsWith (exec .ret s) s (.stackUnderflow s.pc))

/-- JP NNN (R137) and JP V0, NNN (R139): the 16-bit target, never cut to 12 bits and never checked. -/
def Obligations.JumpsSetPc : Prop :=
  ∀ (s : State) (nnn : Addr12),
    Encodes (0x1#4 ++ nnn) (.jp nnn) ∧ Encodes (0xB#4 ++ nnn) (.jpV0 nnn) ∧
    (∃ t, exec (.jp nnn) s = .next t ∧ t.pc.toNat = nnn.toNat ∧ OnlyChanges [.pc] s t) ∧
    (∃ t, exec (.jpV0 nnn) s = .next t ∧ t.pc.toNat = nnn.toNat + (s.reg 0x0#4).toNat ∧ OnlyChanges [.pc] s t)

/-- CALL NNN (R138, R302): pushes the address of the next instruction and jumps; with 16 entries it halts the machine. -/
def Obligations.CallPushesOrOverflows : Prop :=
  ∀ (s : State) (nnn : Addr12),
    Encodes (0x2#4 ++ nnn) (.call nnn) ∧
    (s.stack.length < 16 →
      ∃ t, exec (.call nnn) s = .next t ∧ t.stack = s.pc :: s.stack ∧ t.pc.toNat = nnn.toNat ∧
        OnlyChanges [.pc, .stack] s t) ∧
    (s.stack.length = 16 → HaltsWith (exec (.call nnn) s) s (.stackOverflow s.pc))

/-- A return right after a call restores pc and the stack, and the two change nothing else (E5 of
spec/95_test_vectors.md). -/
def Obligations.ReturnUndoesCall : Prop :=
  ∀ (s : State) (nnn : Addr12), s.stack.length < 16 →
    ∃ t u, exec (.call nnn) s = .next t ∧ exec .ret t = .next u ∧ OnlyChanges [] s u

/-- The four register skips (R140 to R143): pc goes two further exactly when the condition holds. That it may go past 0xFFE,
with nothing fetched or checked by the skip, is the spec's D36 (log 14). -/
def Obligations.SkipsOnCondition : Prop :=
  ∀ (s : State) (x y : Nibble) (nn : Byte),
    Encodes (0x3#4 ++ x ++ nn) (.seImm x nn) ∧ Encodes (0x4#4 ++ x ++ nn) (.sneImm x nn) ∧
    Encodes (0x5#4 ++ x ++ y ++ 0x0#4) (.seReg x y) ∧ Encodes (0x9#4 ++ x ++ y ++ 0x0#4) (.sneReg x y) ∧
    (∃ t, exec (.seImm x nn) s = .next t ∧ t.pc = (if s.reg x = nn then s.pc + 2#16 else s.pc) ∧
      OnlyChanges [.pc] s t) ∧
    (∃ t, exec (.sneImm x nn) s = .next t ∧ t.pc = (if s.reg x = nn then s.pc else s.pc + 2#16) ∧
      OnlyChanges [.pc] s t) ∧
    (∃ t, exec (.seReg x y) s = .next t ∧ t.pc = (if s.reg x = s.reg y then s.pc + 2#16 else s.pc) ∧
      OnlyChanges [.pc] s t) ∧
    (∃ t, exec (.sneReg x y) s = .next t ∧ t.pc = (if s.reg x = s.reg y then s.pc else s.pc + 2#16) ∧
      OnlyChanges [.pc] s t)

/-! ### ALU (spec/41_alu.md) -/

/-- LD Vx, NN (R171), ADD Vx, NN (R172) and LD Vx, Vy (R173): the destination only; VF is not a flag of any of them. -/
def Obligations.LoadsAndAddImmediate : Prop :=
  ∀ (s : State) (x y : Nibble) (nn : Byte),
    Encodes (0x6#4 ++ x ++ nn) (.ldImm x nn) ∧ Encodes (0x7#4 ++ x ++ nn) (.addImm x nn) ∧
    Encodes (0x8#4 ++ x ++ y ++ 0x0#4) (.ldReg x y) ∧
    (∃ t, exec (.ldImm x nn) s = .next t ∧ t.reg x = nn ∧ RegsKeptBut [x] s t ∧ OnlyChanges [.regs] s t) ∧
    (∃ t, exec (.addImm x nn) s = .next t ∧ (t.reg x).toNat = ((s.reg x).toNat + nn.toNat) % 256 ∧
      RegsKeptBut [x] s t ∧ OnlyChanges [.regs] s t) ∧
    (∃ t, exec (.ldReg x y) s = .next t ∧ t.reg x = s.reg y ∧ RegsKeptBut [x] s t ∧ OnlyChanges [.regs] s t)

/-- OR, AND and XOR (R174 to R176), bit by bit: in place, no flag. That VF receives the result where X = F is the spec's D27
(log 14). -/
def Obligations.BitwiseInPlace : Prop :=
  ∀ (s : State) (x y : Nibble),
    Encodes (0x8#4 ++ x ++ y ++ 0x1#4) (.orReg x y) ∧ Encodes (0x8#4 ++ x ++ y ++ 0x2#4) (.andReg x y) ∧
    Encodes (0x8#4 ++ x ++ y ++ 0x3#4) (.xorReg x y) ∧
    (∃ t, exec (.orReg x y) s = .next t ∧
      (∀ k, (t.reg x).getLsbD k = ((s.reg x).getLsbD k || (s.reg y).getLsbD k)) ∧
      RegsKeptBut [x] s t ∧ OnlyChanges [.regs] s t) ∧
    (∃ t, exec (.andReg x y) s = .next t ∧
      (∀ k, (t.reg x).getLsbD k = ((s.reg x).getLsbD k && (s.reg y).getLsbD k)) ∧
      RegsKeptBut [x] s t ∧ OnlyChanges [.regs] s t) ∧
    (∃ t, exec (.xorReg x y) s = .next t ∧
      (∀ k, (t.reg x).getLsbD k = ((s.reg x).getLsbD k ^^ (s.reg y).getLsbD k)) ∧
      RegsKeptBut [x] s t ∧ OnlyChanges [.regs] s t)

/-- ADD Vx, Vy (R177): the sum modulo 256, then the carry in VF, which stands where X = F. -/
def Obligations.AddWithCarry : Prop :=
  ∀ (s : State) (x y : Nibble),
    Encodes (0x8#4 ++ x ++ y ++ 0x4#4) (.addReg x y) ∧
    ∃ t, exec (.addReg x y) s = .next t ∧
      (x ≠ 0xF#4 → (t.reg x).toNat = ((s.reg x).toNat + (s.reg y).toNat) % 256) ∧
      t.reg 0xF#4 = (if (s.reg x).toNat + (s.reg y).toNat > 255 then 0x01#8 else 0x00#8) ∧
      RegsKeptBut [x, 0xF#4] s t ∧ OnlyChanges [.regs] s t

/-- SUB (R178) and SUBN (R180): the difference modulo 256, then VF = 1 exactly on a borrow, the polarity this spec sets of
the two that R183 gives. -/
def Obligations.SubtractWithBorrow : Prop :=
  (∀ b : Bool, subFlag .borrow b = b ∧ subFlag .noBorrow b = !b) ∧ subVfPolarity = .borrow ∧
  ∀ (s : State) (x y : Nibble),
    Encodes (0x8#4 ++ x ++ y ++ 0x5#4) (.sub x y) ∧ Encodes (0x8#4 ++ x ++ y ++ 0x7#4) (.subn x y) ∧
    (∃ t, exec (.sub x y) s = .next t ∧
      (x ≠ 0xF#4 → ((t.reg x).toNat : Int) = ((s.reg x).toNat - (s.reg y).toNat : Int) % 256) ∧
      t.reg 0xF#4 = (if (s.reg x).toNat < (s.reg y).toNat then 0x01#8 else 0x00#8) ∧
      RegsKeptBut [x, 0xF#4] s t ∧ OnlyChanges [.regs] s t) ∧
    (∃ t, exec (.subn x y) s = .next t ∧
      (x ≠ 0xF#4 → ((t.reg x).toNat : Int) = ((s.reg y).toNat - (s.reg x).toNat : Int) % 256) ∧
      t.reg 0xF#4 = (if (s.reg y).toNat < (s.reg x).toNat then 0x01#8 else 0x00#8) ∧
      RegsKeptBut [x, 0xF#4] s t ∧ OnlyChanges [.regs] s t)

/-- SHR (R179) and SHL (R181) by one bit: V[X] in place, the bit pushed out in VF; Y, a don't-care field, has no effect. -/
def Obligations.ShiftsByOne : Prop :=
  ∀ (s : State) (x y : Nibble),
    Encodes (0x8#4 ++ x ++ y ++ 0x6#4) (.shr x y) ∧ Encodes (0x8#4 ++ x ++ y ++ 0xE#4) (.shl x y) ∧
    (∃ t, exec (.shr x y) s = .next t ∧ (x ≠ 0xF#4 → (t.reg x).toNat = (s.reg x).toNat / 2) ∧
      (t.reg 0xF#4).toNat = (s.reg x).toNat % 2 ∧ RegsKeptBut [x, 0xF#4] s t ∧ OnlyChanges [.regs] s t) ∧
    (∃ t, exec (.shl x y) s = .next t ∧ (x ≠ 0xF#4 → (t.reg x).toNat = (s.reg x).toNat * 2 % 256) ∧
      (t.reg 0xF#4).toNat = (s.reg x).toNat / 128 ∧ RegsKeptBut [x, 0xF#4] s t ∧ OnlyChanges [.regs] s t) ∧
    (∀ y' : Nibble, exec (.shr x y) s = exec (.shr x y') s ∧ exec (.shl x y) s = exec (.shl x y') s)

/-- With X = F the flag, computed from the old operands, is what VF ends as in all five flag-writing operations (R170);
with Y = F the operand is the old VF. The flags are those of R177 to R181; for SUB and SUBN the polarity is borrow (R183, D8,
log 12), for the shifts the order is the spec's D10 (log 14). -/
def Obligations.FlagIsWrittenLast : Prop :=
  ∀ (s : State) (x y : Nibble),
    (∃ t, exec (.addReg 0xF#4 y) s = .next t ∧ (t.reg 0xF#4 = 0x01#8 ↔ 255 < (s.reg 0xF#4).toNat + (s.reg y).toNat)) ∧
    (∃ t, exec (.sub 0xF#4 y) s = .next t ∧ (t.reg 0xF#4 = 0x01#8 ↔ (s.reg 0xF#4).toNat < (s.reg y).toNat)) ∧
    (∃ t, exec (.subn 0xF#4 y) s = .next t ∧ (t.reg 0xF#4 = 0x01#8 ↔ (s.reg y).toNat < (s.reg 0xF#4).toNat)) ∧
    (∃ t, exec (.shr 0xF#4 y) s = .next t ∧ (t.reg 0xF#4 = 0x01#8 ↔ (s.reg 0xF#4).toNat % 2 = 1)) ∧
    (∃ t, exec (.shl 0xF#4 y) s = .next t ∧ (t.reg 0xF#4 = 0x01#8 ↔ 128 ≤ (s.reg 0xF#4).toNat)) ∧
    (x ≠ 0xF#4 → ∃ t u v, exec (.addReg x 0xF#4) s = .next t ∧ exec (.sub x 0xF#4) s = .next u ∧
      exec (.subn x 0xF#4) s = .next v ∧ t.reg x = s.reg x + s.reg 0xF#4 ∧ u.reg x = s.reg x - s.reg 0xF#4 ∧
      v.reg x = s.reg 0xF#4 - s.reg x)

/-- RND (R182): the byte drawn, masked; no flag; and every byte can be drawn, in a state that differs only in what the
environment has put on `in.rand`. The byte drawn is `State.randNow`, free where the environment has put none; a draw uses it
up, so the next one is fresh (log 3). -/
def Obligations.RandomIsMaskedDraw : Prop :=
  ∀ (s : State) (x : Nibble) (nn : Byte),
    Encodes (0xC#4 ++ x ++ nn) (.rnd x nn) ∧
    (∃ t, exec (.rnd x nn) s = .next t ∧ t.reg x = s.randNow &&& nn ∧ t.reg x &&& nn = t.reg x ∧
      t.randIn = s.randIn.tail ∧ t.draws = s.draws + 1 ∧
      RegsKeptBut [x] s t ∧ OnlyChanges [.regs, .rand, .draws] s t) ∧
    (∀ b : Byte, ∃ u t, OnlyChanges [.rand] s u ∧ exec (.rnd x nn) u = .next t ∧ t.reg x = b &&& nn)

/-! ### Index register and memory (spec/42_index_memory.md) -/

/-- LD I (R220) and ADD I (R221): 16 bits, no mask to 12, no flag. -/
def Obligations.IndexLoadAndAdd : Prop :=
  ∀ (s : State) (x : Nibble) (nnn : Addr12),
    Encodes (0xA#4 ++ nnn) (.ldI nnn) ∧ Encodes (0xF#4 ++ x ++ 0x1E#8) (.addI x) ∧
    (∃ t, exec (.ldI nnn) s = .next t ∧ t.I.toNat = nnn.toNat ∧ OnlyChanges [.index] s t) ∧
    (∃ t, exec (.addI x) s = .next t ∧ t.I.toNat = (s.I.toNat + (s.reg x).toNat) % 65536 ∧
      OnlyChanges [.index] s t)

/-- LD F (R222): I becomes FONT_ADDR of V[X], the OPEN parameter, whatever it is (log 7). -/
def Obligations.GlyphAddressIsParameter : Prop :=
  ∀ (s : State) (x : Nibble),
    Encodes (0xF#4 ++ x ++ 0x29#8) (.ldF x) ∧
    ∃ t, exec (.ldF x) s = .next t ∧ t.I = Config.fontAddr (s.reg x) ∧ OnlyChanges [.index] s t

/-- LD B (R223): the three decimal digits at I, I + 1, I + 2, or MemoryOutOfRange and no byte. -/
def Obligations.BcdStoresDigits : Prop :=
  ∀ (s : State) (x : Nibble),
    Encodes (0xF#4 ++ x ++ 0x33#8) (.ldB x) ∧
    (s.I.toNat + 2 ≤ 0xFFF →
      ∃ t, exec (.ldB x) s = .next t ∧
        (s.mem.wf = true →
          (t.mem.read s.I.toNat).toNat = (s.reg x).toNat / 100 ∧
          (t.mem.read (s.I.toNat + 1)).toNat = (s.reg x).toNat / 10 % 10 ∧
          (t.mem.read (s.I.toNat + 2)).toNat = (s.reg x).toNat % 10) ∧
        (∀ a, (a < s.I.toNat ∨ s.I.toNat + 2 < a) → t.mem.read a = s.mem.read a) ∧ OnlyChanges [.mem] s t) ∧
    (0xFFF < s.I.toNat + 2 → HaltsWith (exec (.ldB x) s) s (.memoryOutOfRange (max 0x1000 s.I.toNat) s.pc))

/-- LD [I], Vx (R224): V0..VX to memory from I upward, I unchanged, or MemoryOutOfRange and no byte. -/
def Obligations.BlockStoreWritesRegisters : Prop :=
  ∀ (s : State) (x : Nibble),
    Encodes (0xF#4 ++ x ++ 0x55#8) (.store x) ∧ loadStoreIncI = false ∧
    (s.I.toNat + x.toNat ≤ 0xFFF →
      ∃ t, exec (.store x) s = .next t ∧
        (s.mem.wf = true → ∀ k : Nibble, k.toNat ≤ x.toNat → t.mem.read (s.I.toNat + k.toNat) = s.reg k) ∧
        (∀ a, (a < s.I.toNat ∨ s.I.toNat + x.toNat < a) → t.mem.read a = s.mem.read a) ∧ OnlyChanges [.mem] s t) ∧
    (0xFFF < s.I.toNat + x.toNat → HaltsWith (exec (.store x) s) s (.memoryOutOfRange (max 0x1000 s.I.toNat) s.pc))

/-- LD Vx, [I] (R225): V0..VX from memory, the other registers and I unchanged, or MemoryOutOfRange and no register. -/
def Obligations.BlockLoadReadsRegisters : Prop :=
  ∀ (s : State) (x : Nibble),
    Encodes (0xF#4 ++ x ++ 0x65#8) (.load x) ∧ loadStoreIncI = false ∧
    (s.I.toNat + x.toNat ≤ 0xFFF →
      ∃ t, exec (.load x) s = .next t ∧
        (∀ k : Nibble, t.reg k = if k.toNat ≤ x.toNat then s.mem.read (s.I.toNat + k.toNat) else s.reg k) ∧
        OnlyChanges [.regs] s t) ∧
    (0xFFF < s.I.toNat + x.toNat → HaltsWith (exec (.load x) s) s (.memoryOutOfRange (max 0x1000 s.I.toNat) s.pc))

/-- What a block store wrote, a block load with the same I brings back, whatever the registers held between. -/
def Obligations.StoreThenLoadRestores : Prop :=
  ∀ (s u : State) (x : Nibble), s.mem.wf = true → s.I.toNat + x.toNat ≤ 0xFFF →
    ∃ t, exec (.store x) s = .next t ∧ (u.mem = t.mem → u.I = s.I →
      ∃ v, exec (.load x) u = .next v ∧ ∀ k : Nibble, v.reg k = if k.toNat ≤ x.toNat then s.reg k else u.reg k)

/-! ### Framebuffer (spec/43_display.md) -/

/-- CLS (R250). -/
def Obligations.ClearScreen : Prop :=
  Encodes 0x00E0#16 .cls ∧
  ∀ s : State, ∃ t, exec .cls s = .next t ∧ (∀ x y, Framebuffer.pixel t.fb x y = false) ∧ t.fbDirty = true ∧
    OnlyChanges [.fb, .dirty] s t

/-- DRW (R251 to R253): a pixel is toggled exactly when the sprite covers it with a 1 bit, clipped at the edges; VF is 1
exactly when a toggled pixel was lit; a sprite byte out of memory faults and draws nothing. -/
def Obligations.DrawTogglesCoveredPixels : Prop :=
  ∀ (s : State) (x y n : Nibble),
    Encodes (0xD#4 ++ x ++ y ++ n) (.drw x y n) ∧
    (n.toNat = 0 ∨ s.I.toNat + n.toNat - 1 ≤ 0xFFF →
      ∃ t, exec (.drw x y n) s = .next t ∧
        (∀ px py, Framebuffer.pixel t.fb px py = true ↔ ¬(Framebuffer.pixel s.fb px py = true ↔
          SpriteCovers s.mem s.I.toNat ((s.reg x).toNat % 64) ((s.reg y).toNat % 32) n.toNat px py)) ∧
        (t.reg 0xF#4 = 0x00#8 ∨ t.reg 0xF#4 = 0x01#8) ∧
        (t.reg 0xF#4 = 0x01#8 ↔ ∃ px py, Framebuffer.pixel s.fb px py = true ∧
          SpriteCovers s.mem s.I.toNat ((s.reg x).toNat % 64) ((s.reg y).toNat % 32) n.toNat px py) ∧
        t.fbDirty = true ∧ RegsKeptBut [0xF#4] s t ∧ OnlyChanges [.fb, .dirty, .regs] s t) ∧
    (1 ≤ n.toNat → 0xFFF < s.I.toNat + n.toNat - 1 →
      HaltsWith (exec (.drw x y n) s) s (.memoryOutOfRange (max 0x1000 s.I.toNat) s.pc))

/-- Drawing the same sprite twice at the same place leaves the screen as it was, and the second draw collides exactly when
the first one lit a pixel (E8 of spec/95_test_vectors.md). X and Y are not F: VF is written between the draws. -/
def Obligations.DrawTwiceRestoresScreen : Prop :=
  ∀ (s : State) (x y n : Nibble), x ≠ 0xF#4 → y ≠ 0xF#4 → (n.toNat = 0 ∨ s.I.toNat + n.toNat - 1 ≤ 0xFFF) →
    ∃ t u, exec (.drw x y n) s = .next t ∧ exec (.drw x y n) t = .next u ∧
      (∀ px py, Framebuffer.pixel u.fb px py = Framebuffer.pixel s.fb px py) ∧
      (u.reg 0xF#4 = 0x01#8 ↔ ∃ px py, Framebuffer.pixel s.fb px py = false ∧
        Framebuffer.pixel t.fb px py = true)

/-! ### Timers and keys (spec/44_timers_keys.md) -/

/-- LD Vx, DT (R270), LD DT, Vx (R271), LD ST, Vx (R272): direct transfers. -/
def Obligations.TimerTransfers : Prop :=
  ∀ (s : State) (x : Nibble),
    Encodes (0xF#4 ++ x ++ 0x07#8) (.ldFromDT x) ∧ Encodes (0xF#4 ++ x ++ 0x15#8) (.ldDT x) ∧
    Encodes (0xF#4 ++ x ++ 0x18#8) (.ldST x) ∧
    (∃ t, exec (.ldFromDT x) s = .next t ∧ t.reg x = s.DT ∧ RegsKeptBut [x] s t ∧ OnlyChanges [.regs] s t) ∧
    (∃ t, exec (.ldDT x) s = .next t ∧ t.DT = s.reg x ∧ OnlyChanges [.delay] s t) ∧
    (∃ t, exec (.ldST x) s = .next t ∧ t.ST = s.reg x ∧ OnlyChanges [.sound] s t)

/-- SKP (R273) and SKNP (R274): the key snapshot drawn at the step decides the skip; a key number above 0xF halts the
machine (R306) and draws nothing. The snapshot is `State.keysNow`, free where the environment has put none; a draw uses it up
(log 3). -/
def Obligations.KeySkips : Prop :=
  ∀ (s : State) (x : Nibble),
    Encodes (0xE#4 ++ x ++ 0x9E#8) (.skp x) ∧ Encodes (0xE#4 ++ x ++ 0xA1#8) (.sknp x) ∧
    (∀ h : (s.reg x).toNat < 16,
      (∃ t, exec (.skp x) s = .next t ∧
        t.pc = (if s.keysNow[(s.reg x).toNat] = true then s.pc + 2#16 else s.pc) ∧
        t.keysIn = s.keysIn.tail ∧ t.draws = s.draws + 1 ∧
        OnlyChanges [.pc, .keys, .draws] s t) ∧
      (∃ t, exec (.sknp x) s = .next t ∧
        t.pc = (if s.keysNow[(s.reg x).toNat] = true then s.pc else s.pc + 2#16) ∧
        t.keysIn = s.keysIn.tail ∧ t.draws = s.draws + 1 ∧
        OnlyChanges [.pc, .keys, .draws] s t)) ∧
    (0xF < (s.reg x).toNat →
      HaltsWith (exec (.skp x) s) s (.keyIndexOutOfRange (s.reg x) s.pc) ∧
      HaltsWith (exec (.sknp x) s) s (.keyIndexOutOfRange (s.reg x) s.pc))

/-- LD Vx, K (R275): the wait begins and nothing else changes; no register is written by this step. -/
def Obligations.KeyWaitBegins : Prop :=
  ∀ (s : State) (x : Nibble),
    Encodes (0xF#4 ++ x ++ 0x0A#8) (.ldKey x) ∧
    ∃ t, exec (.ldKey x) s = .next t ∧ t.run = .waitingForKey x ∧ OnlyChanges [.run] s t

/-- The key-press step (R276, R326): it completes a wait with the key number in V[x], pc unchanged; while Running the
event has no effect. -/
def Obligations.KeyPressCompletesWait : Prop :=
  ∀ (s u : State) (k : Nibble), HasTurn (.keyPress k) s u →
    (∀ x, s.run = .waitingForKey x →
      ∃ t, step s = .next t ∧ t.run = .running ∧ (t.reg x).toNat = k.toNat ∧ RegsKeptBut [x] u t ∧
        OnlyChanges [.regs, .run] u t) ∧
    (s.run = .running → ∃ t, step s = .next t ∧ OnlyChanges [] u t)

/-! ### Faults, agents and ports (spec/60_exceptions.md) -/

/-- Halted is terminal (R310): no step, and no agent's step changes the state. -/
def Obligations.HaltedIsTerminal : Prop :=
  ∀ (s : State) (r : HaltReason), s.run = .halted r →
    (∀ t, step s ≠ .next t) ∧ (∀ t, coreTurn s ≠ .next t) ∧ timerTick s = s ∧ redrawStep s = s ∧
    (∀ k, keyPressStep k s = s) ∧ quitStep s = s

/-- The tick (R320): each timer above 0 goes down by one in the same step, in Running and in WaitingForKey (R322). Where the
agenda is fair to the timer (R324), its turn comes, unless the machine halts before. -/
def Obligations.TickCountsBothTimers : Prop :=
  (∀ s u : State, NotHalted s → HasTurn .tick s u →
    ∃ t, step s = .next t ∧ t.DT.toNat = s.DT.toNat - 1 ∧ t.ST.toNat = s.ST.toNat - 1 ∧
      OnlyChanges [.delay, .sound] u t) ∧
  (∀ s : State, NotHalted s → s.agenda.FairToTimer →
    ∃ t, Reaches s t ∧ ((∃ r, t.run = .halted r) ∨ NotHalted t ∧ ∃ u, HasTurn .tick t u))

/-- The redraw hand-off (R321): a copy of the pixels goes out, indexed y * 64 + x, and fb_dirty is cleared. -/
def Obligations.RedrawHandsOffPixels : Prop :=
  ∀ s u : State, NotHalted s → HasTurn .redraw s u →
    ∃ t p, step s = .next t ∧ t.fbSnapshot = some p ∧
      (∀ (x : Fin 64) (y : Fin 32) (h : y.val * 64 + x.val < 2048),
        p[y.val * 64 + x.val] = Framebuffer.pixel s.fb x y) ∧
      t.fbDirty = false ∧ OnlyChanges [.snapshot, .dirty] u t

/-- Quit (R314): Halted(Quit), and nothing else. -/
def Obligations.QuitHalts : Prop :=
  ∀ s u : State, NotHalted s → HasTurn .quit s u →
    ∃ t, step s = .next t ∧ t.run = .halted .quit ∧ OnlyChanges [.run] u t

/-- The output ports are functions of the state (R323), and the codes of the failures they name are those of R300. -/
def Obligations.OutputsFollowState : Prop :=
  ∀ s : State,
    (s.soundActive = true ↔ s.ST ≠ 0x00#8) ∧ (s.delayActive = true ↔ s.DT ≠ 0x00#8) ∧ s.outFbDirty = s.fbDirty ∧
    (s.waitingForKeyOut = true ↔ ∃ x, s.run = .waitingForKey x) ∧ (s.haltedOut = true ↔ ∃ r, s.run = .halted r) ∧
    (∀ r, s.haltReason = some r ↔ s.run = .halted r) ∧ (∀ l, failureCode (.legacy l) = 0) ∧
    (∀ w p, failureCode (.fatal (.decodeFailure w p)) = 1) ∧ (∀ p, failureCode (.fatal (.stackOverflow p)) = 2) ∧
    (∀ p, failureCode (.fatal (.stackUnderflow p)) = 3) ∧ (∀ p, failureCode (.fatal (.pcOutOfRange p)) = 4) ∧
    (∀ a p, failureCode (.fatal (.memoryOutOfRange a p)) = 5) ∧
    (∀ k p, failureCode (.fatal (.keyIndexOutOfRange k p)) = 6) ∧ failureCode (.fatal .quit) = 7

/-- Every instruction, in every state, has a next state: none is refused and none stops the machine outside `run`. So has a
machine that is not halted: exactly one agent has the turn, and it can be any of them (R324), in a state that differs only in
the agenda. -/
def Obligations.EveryInstructionHasNext : Prop :=
  (∀ (i : Instr) (s : State), ∃ t, exec i s = .next t) ∧
  (∀ s : State, NotHalted s → ∃ t, step s = .next t) ∧
  (∀ s : State, ∃ a u, HasTurn a s u ∧ ∀ b v, HasTurn b s v → b = a ∧ v = u) ∧
  (∀ (s : State) (a : Turn), ∃ u v, OnlyChanges [.agenda] s u ∧ HasTurn a u v)

/-- Faults are precise (R309): an instruction that halts the machine commits none of its own writes; after the whole step
the state is the one after the fetch advance, or before it for PcOutOfRange. -/
def Obligations.FaultsArePrecise : Prop :=
  (∀ (i : Instr) (s t : State) (r : HaltReason), NotHalted s → exec i s = .next t → t.run = .halted r →
    OnlyChanges [.run] s t) ∧
  (∀ (s u t : State) (r : HaltReason), s.run = .running → HasTurn .core s u → step s = .next t → t.run = .halted r →
    OnlyChanges [.run, .pc] u t ∧ (r = .pcOutOfRange s.pc ∧ t.pc = s.pc ∨ s.pc.toNat ≤ 0xFFE ∧ t.pc = s.pc + 2#16))

/-- Every instruction has at most one execute-phase fault kind (R308). -/
def Obligations.OneFaultKindPerInstruction : Prop :=
  ∀ (i : Instr) (s t : State) (r : HaltReason), NotHalted s → exec i s = .next t → t.run = .halted r →
    match r with
    | .stackOverflow _ => ∃ nnn, i = .call nnn
    | .stackUnderflow _ => i = .ret
    | .memoryOutOfRange _ _ => (∃ x y n, i = .drw x y n) ∨ ∃ x, i = .ldB x ∨ i = .store x ∨ i = .load x
    | .keyIndexOutOfRange _ _ => ∃ x, i = .skp x ∨ i = .sknp x
    | .decodeFailure _ _ | .pcOutOfRange _ | .quit => False

/-! ### Whole-machine rules (spec/10_state.md) -/

/-- Only its destination and, for the flag writers, VF: no instruction writes any other register (R21, R23). -/
def Obligations.RegisterWriters : Prop :=
  ∀ (i : Instr) (s t : State) (r : Nibble), exec i s = .next t → ¬mayWriteReg i r → t.reg r = s.reg r

/-- Who writes pc (R25), the stack (R26) and the driver state (R30, R308). -/
def Obligations.ControlStateWriters : Prop :=
  ∀ (i : Instr) (s t : State), exec i s = .next t →
    (t.stack ≠ s.stack → i = .ret ∨ ∃ nnn, i = .call nnn) ∧
    (t.pc ≠ s.pc → i = .ret ∨ (∃ nnn, i = .jp nnn ∨ i = .call nnn ∨ i = .jpV0 nnn) ∨
      (∃ x nn, i = .seImm x nn ∨ i = .sneImm x nn) ∨ (∃ x y, i = .seReg x y ∨ i = .sneReg x y) ∨
      ∃ x, i = .skp x ∨ i = .sknp x) ∧
    (t.run ≠ s.run → (∃ x, i = .ldKey x ∧ t.run = .waitingForKey x) ∨ ∃ r, t.run = .halted r)

/-- Who writes memory (R66), I (R24), the timers (R27), the framebuffer (R28) and the redraw flag (R31). -/
def Obligations.DataStateWriters : Prop :=
  ∀ (i : Instr) (s t : State), exec i s = .next t →
    (∀ a, t.mem.read a ≠ s.mem.read a → ∃ x, i = .ldB x ∨ i = .store x) ∧
    (t.I ≠ s.I → (∃ nnn, i = .ldI nnn) ∨ ∃ x, i = .addI x ∨ i = .ldF x) ∧
    (t.DT ≠ s.DT → ∃ x, i = .ldDT x) ∧ (t.ST ≠ s.ST → ∃ x, i = .ldST x) ∧
    (t.fb ≠ s.fb → i = .cls ∨ ∃ x y n, i = .drw x y n) ∧
    (t.fbDirty ≠ s.fbDirty → t.fbDirty = true ∧ (i = .cls ∨ ∃ x y n, i = .drw x y n)) ∧
    t.fbSnapshot = s.fbSnapshot ∧ t.agenda = s.agenda

/-- No instruction reads ST (R27), fb_dirty (R31), the reports (R307) or the last snapshot: two states that differ only in
them go on to states that differ only in them. -/
def Obligations.OutputsNeverRead : Prop :=
  ∀ (i : Instr) (s : State) (st : Byte) (dirty : Bool) (rs : List LegacyReport) (sn : Option Snapshot),
    ∃ t u, exec i s = .next t ∧
      exec i { s with ST := st, fbDirty := dirty, reports := rs, fbSnapshot := sn } = .next u ∧
      OnlyChanges [.sound, .dirty, .reports, .snapshot] t u

/-! ### Reset and boot (spec/70_reset_and_hazards.md) -/

/-- The reset values of R351, and the outputs that follow from them. -/
def Obligations.ResetValues : Prop :=
  (∀ a, State.reset.mem.read a = 0x00#8) ∧ (∀ r, State.reset.reg r = 0x00#8) ∧ State.reset.I = 0x0000#16 ∧
  State.reset.pc = 0x0200#16 ∧ State.reset.stack = [] ∧ (∀ x y, Framebuffer.pixel State.reset.fb x y = false) ∧
  State.reset.DT = 0x00#8 ∧ State.reset.ST = 0x00#8 ∧ State.reset.run = .running ∧ State.reset.fbDirty = false ∧
  State.reset.soundActive = false ∧ State.reset.delayActive = false ∧ State.reset.waitingForKeyOut = false ∧
  State.reset.haltedOut = false

/-- The program load (R352): the image from 0x200, at most 3584 bytes of it, and nothing else. -/
def Obligations.ProgramLoadPlacesImage : Prop :=
  ∀ (s : State) (image : List Byte), s.mem.wf = true →
    (s.loadProgram image).mem.wf = true ∧
    (∀ a, (s.loadProgram image).mem.read a =
      if 0x200 ≤ a ∧ a < 0x200 + min image.length 0xE00 then image.getD (a - 0x200) 0 else s.mem.read a) ∧
    OnlyChanges [.mem] s (s.loadProgram image)

/-! ### Invariants -/

/-- The invariant holds at reset. -/
def Obligations.ResetMeetsInv : Prop := State.reset.Inv

/-- Every step of every agent keeps the invariant: canonical memory, at most 16 stack entries each an address after a
fetched word, pc at most 0x10FE (R25, R26). -/
def Obligations.StepKeepsInv : Prop :=
  ∀ s t : State, s.Inv → step s = .next t → t.Inv

/-- A step that halts the machine leaves a record that is true of the state it left: the fault's own condition holds there
and the recorded info is the state's (R300 to R306). -/
def Obligations.HaltRecordIsTrue : Prop :=
  ∀ s t : State, step s = .next t → t.HaltExplained

/-- Every state that any image, any interleaving of the agents and any input can lead to from boot meets the invariant,
and its halt record, if it has one, is true. -/
def Obligations.RunsFromBootAreSound : Prop :=
  ∀ (image : List Byte) (turns : Agenda) (rand : List Byte) (keys : List KeySnapshot) (t : State),
    Reaches (State.bootIn image turns rand keys) t → t.Inv ∧ t.HaltExplained

/-- A wait that neither a key press nor a quit is coming to end lasts for good (R134, R330). Step by step: the machine steps,
waits on, and changes only what timers and redraw change (R322). Hence so in every state it reaches; and where the agenda is
fair to the timer (R324), both timers run out while it waits. -/
def Obligations.WaitWithoutKeyNeverEnds : Prop :=
  ∀ (s : State) (x : Nibble), s.run = .waitingForKey x → s.agenda.LeavesWaiting →
    (∃ t, step s = .next t ∧ t.run = .waitingForKey x ∧ t.agenda.LeavesWaiting ∧
      OnlyChanges [.delay, .sound, .dirty, .snapshot, .agenda] s t) ∧
    SafeFrom s ∧
    (∀ t, Reaches s t →
      t.run = .waitingForKey x ∧ OnlyChanges [.delay, .sound, .dirty, .snapshot, .agenda] s t) ∧
    (s.agenda.FairToTimer → ∃ t, Reaches s t ∧ t.DT = 0x00#8 ∧ t.ST = 0x00#8)
end

