-- ==== Sys2Proof/Laws/Draw.lean ====
section
/-! SUPPORT. What the pixel write logic does, in closed form: which pixels a row and a whole sprite toggle, and when they
collide (spec/43_display.md R251 to R253). -/

namespace Sys2Proof.Machine

theorem pixel_setPixel (fb : Framebuffer) (x x' : Fin 64) (y y' : Fin 32) (p : Bool) :
    Framebuffer.pixel (Framebuffer.setPixel fb x y p) x' y' =
      if x' = x ∧ y' = y then p else Framebuffer.pixel fb x' y' := by
  simp only [Framebuffer.pixel, Framebuffer.setPixel, Vector.getElem_set, Fin.ext_iff]
  by_cases hx : x.val = x'.val
  · have hx' := hx.symm
    by_cases hy : y.val = y'.val
    · simp [hx, hy]
    · have : ¬y'.val = y.val := fun h => hy h.symm
      simp [hx, hy, this]
  · have : ¬x'.val = x.val := fun h => hx h.symm
    simp [hx, this]

/-- Framebuffers with the same pixels are the same. -/
theorem Framebuffer_ext {f g : Framebuffer} (h : ∀ x y, Framebuffer.pixel f x y = Framebuffer.pixel g x y) : f = g := by
  apply Vector.ext; intro x hx
  apply Vector.ext; intro y hy
  exact h ⟨x, hx⟩ ⟨y, hy⟩

@[simp] theorem pixel_blank (x : Fin 64) (y : Fin 32) : Framebuffer.pixel Framebuffer.blank x y = false := by
  simp [Framebuffer.pixel, Framebuffer.blank]

/-- One sprite bit toggles its pixel where it is a 1 that lies on the screen (R252, R253). -/
theorem plot_pixel (c : Canvas) (x y : Nat) (bit : Bool) (px : Fin 64) (py : Fin 32) :
    Framebuffer.pixel (c.plot x y bit).fb px py =
      (Framebuffer.pixel c.fb px py ^^ (bit && decide (px.val = x) && decide (py.val = y))) := by
  unfold Canvas.plot
  by_cases h : x < 64 ∧ y < 32
  · cases bit
    · simp [h]
    · by_cases h1 : px.val = x <;> by_cases h2 : py.val = y <;>
        simp [h, pixel_setPixel, pixelXor, Fin.ext_iff, h1, h2]
      all_goals (congr 1 <;> exact Fin.ext (by simp [h1, h2]))
  · have : ¬(px.val = x ∧ py.val = y) := by rintro ⟨rfl, rfl⟩; exact h ⟨px.isLt, py.isLt⟩
    simp only [not_and] at this
    by_cases h1 : px.val = x
    · simp [h, this h1]
    · simp [h, h1]

/-- It collides where that pixel was lit. -/
theorem plot_collision (c : Canvas) (x y : Nat) (bit : Bool) :
    (c.plot x y bit).collision = true ↔
      c.collision = true ∨
        ∃ (px : Fin 64) (py : Fin 32), bit = true ∧ px.val = x ∧ py.val = y ∧ Framebuffer.pixel c.fb px py = true := by
  unfold Canvas.plot
  by_cases h : x < 64 ∧ y < 32
  · cases bit
    · simp [h]
    · simp only [h, and_self, dif_pos, if_true, pixelXor, Bool.or_eq_true, true_and]
      refine or_congr_right ⟨fun hp => ⟨⟨x, h.1⟩, ⟨y, h.2⟩, rfl, rfl, hp⟩, ?_⟩
      rintro ⟨px, py, rfl, rfl, hp⟩; exact hp
  · simp only [h, dif_neg, not_false_iff]
    refine ⟨.inl, ?_⟩
    rintro (hc | ⟨px, py, -, rfl, rfl, -⟩)
    · exact hc
    · exact absurd ⟨px.isLt, py.isLt⟩ h

/-- The 1 bits of one sprite row drawn from column x0 at row y. -/
def RowCovers (x0 y : Nat) (row : Byte) (px : Fin 64) (py : Fin 32) : Prop :=
  py.val = y ∧ x0 ≤ px.val ∧ px.val < x0 + 8 ∧ row.getLsbD (7 - (px.val - x0)) = true

/-- The 1 bits of the first `n` columns of such a row. -/
def ColsCover (x0 y n : Nat) (row : Byte) (px : Fin 64) (py : Fin 32) : Prop :=
  py.val = y ∧ x0 ≤ px.val ∧ px.val < x0 + n ∧ spriteBit row (px.val - x0) = true

theorem colsCover_succ (x0 y n : Nat) (row : Byte) (px : Fin 64) (py : Fin 32) :
    ColsCover x0 y (n + 1) row px py ↔
      ColsCover x0 y n row px py ∨ (spriteBit row n = true ∧ px.val = x0 + n ∧ py.val = y) := by
  unfold ColsCover
  constructor
  · rintro ⟨h1, h2, h3, h4⟩
    by_cases h : px.val = x0 + n
    · exact .inr ⟨by rwa [h, Nat.add_sub_cancel_left] at h4, h, h1⟩
    · exact .inl ⟨h1, h2, by omega, h4⟩
  · rintro (⟨h1, h2, h3, h4⟩ | ⟨h1, h2, h3⟩)
    · exact ⟨h1, h2, by omega, h4⟩
    · exact ⟨h3, by omega, by omega, by rwa [h2, Nat.add_sub_cancel_left]⟩

/-- Toggling by `p` and then by `q`, which exclude each other, is toggling by either. -/
theorem toggle_twice {a p q : Prop} (h : ¬(p ∧ q)) : ¬((¬(a ↔ p)) ↔ q) ↔ ¬(a ↔ (p ∨ q)) := by
  by_cases a <;> by_cases p <;> by_cases q <;> simp_all

/-- The pixels after drawing `d` over `c`, when `d` toggles what `cov` covers; and its collision. -/
def Toggles (c d : Canvas) (cov : Fin 64 → Fin 32 → Prop) : Prop :=
  (∀ (px : Fin 64) (py : Fin 32), Framebuffer.pixel d.fb px py = true ↔
    ¬(Framebuffer.pixel c.fb px py = true ↔ cov px py)) ∧
  (d.collision = true ↔ c.collision = true ∨ ∃ (px : Fin 64) (py : Fin 32),
    cov px py ∧ Framebuffer.pixel c.fb px py = true)

theorem Toggles.none (c : Canvas) {cov : Fin 64 → Fin 32 → Prop} (h : ∀ px py, ¬cov px py) : Toggles c c cov := by
  constructor <;> simp [h]

/-- Drawing what `p` covers and then what `q` covers, which share no pixel: each collision is with what was lit before
both. -/
theorem Toggles.trans {c d e : Canvas} {p q r : Fin 64 → Fin 32 → Prop} (h1 : Toggles c d p) (h2 : Toggles d e q)
    (hd : ∀ px py, ¬(p px py ∧ q px py)) (hr : ∀ px py, r px py ↔ p px py ∨ q px py) : Toggles c e r := by
  obtain ⟨p1, c1⟩ := h1
  obtain ⟨p2, c2⟩ := h2
  constructor
  · intro px py
    rw [p2, p1, hr]
    exact toggle_twice (hd px py)
  · rw [c2, c1]
    constructor
    · rintro ((h | ⟨px, py, hp, hl⟩) | ⟨px, py, hq, hl⟩)
      · exact .inl h
      · exact .inr ⟨px, py, (hr ..).mpr (.inl hp), hl⟩
      · have hnp : ¬p px py := fun hp => hd px py ⟨hp, hq⟩
        have := (p1 px py).mp hl
        exact .inr ⟨px, py, (hr ..).mpr (.inr hq), by simpa [hnp] using this⟩
    · rintro (h | ⟨px, py, hc, hl⟩)
      · exact .inl (.inl h)
      · rcases (hr ..).mp hc with hp | hq
        · exact .inl (.inr ⟨px, py, hp, hl⟩)
        · have hnp : ¬p px py := fun hp => hd px py ⟨hp, hq⟩
          exact .inr ⟨px, py, hq, (p1 px py).mpr (by simp [hl, hnp])⟩

theorem plot_spec (c : Canvas) (x y : Nat) (bit : Bool) :
    Toggles c (c.plot x y bit) (fun px py => bit = true ∧ px.val = x ∧ py.val = y) := by
  constructor
  · intro px py
    rw [plot_pixel]
    cases Framebuffer.pixel c.fb px py <;> cases bit <;> simp [imp_iff_not_or]
  · rw [plot_collision]
    simp only [and_assoc]

/-- The fold of `drawRow` over its first `n` columns. -/
theorem foldl_plot (x0 y : Nat) (row : Byte) (n : Nat) (c : Canvas) :
    Toggles c ((List.range n).foldl (fun c col => c.plot (x0 + col) y (spriteBit row col)) c)
      (ColsCover x0 y n row) := by
  induction n with
  | zero => exact Toggles.none c (by rintro px py ⟨_, h1, h2, _⟩; omega)
  | succ n ih =>
    rw [List.range_succ, List.foldl_append]
    refine ih.trans (plot_spec _ _ _ _) ?_ (colsCover_succ x0 y n row)
    rintro px py ⟨h1, h2⟩
    have := h1.2.2.1
    omega

/-- A sprite row toggles the pixels of its 1 bits and collides where one of them was lit. -/
theorem drawRow_spec (c : Canvas) (x0 y : Nat) (row : Byte) : Toggles c (c.drawRow x0 y row) (RowCovers x0 y row) :=
  foldl_plot x0 y row 8 c

/-- The 1 bits of a sprite drawn from (x0, y0), row r at y0 + r. -/
def RowsCover (x0 y0 : Nat) (rows : List Byte) (px : Fin 64) (py : Fin 32) : Prop :=
  ∃ r, ∃ h : r < rows.length, RowCovers x0 (y0 + r) rows[r] px py

theorem rowsCover_cons (x0 y0 : Nat) (row : Byte) (rows : List Byte) (px : Fin 64) (py : Fin 32) :
    RowsCover x0 y0 (row :: rows) px py ↔ RowCovers x0 y0 row px py ∨ RowsCover x0 (y0 + 1) rows px py := by
  constructor
  · rintro ⟨r, h, hr⟩
    cases r with
    | zero => exact .inl hr
    | succ r =>
      refine .inr ⟨r, by simpa using h, ?_⟩
      rw [Nat.add_right_comm]; exact hr
  · rintro (h | ⟨r, h, hr⟩)
    · exact ⟨0, by simp, h⟩
    · refine ⟨r + 1, by simpa using h, ?_⟩
      rw [Nat.add_right_comm] at hr; exact hr

/-- A row and the rows below it share no pixel. -/
theorem not_both_cover (x0 y0 : Nat) (row : Byte) (rows : List Byte) (px : Fin 64) (py : Fin 32) :
    ¬(RowCovers x0 y0 row px py ∧ RowsCover x0 (y0 + 1) rows px py) := by
  rintro ⟨h, r, _, hr⟩
  have h1 := h.1
  have h2 := hr.1
  omega

/-- A whole sprite toggles the pixels of its 1 bits and collides where one of them was lit before the draw: the flag is
computed "across the *entire* sprite" (R251, R252). -/
theorem drawRows_spec (x0 : Nat) (rows : List Byte) : ∀ (c : Canvas) (y0 : Nat),
    Toggles c (c.drawRows x0 y0 rows) (RowsCover x0 y0 rows) := by
  induction rows with
  | nil => exact fun c y0 => Toggles.none c (by rintro px py ⟨r, h, -⟩; simp at h)
  | cons row rows ih =>
    intro c y0
    exact (drawRow_spec c x0 y0 row).trans (ih _ _) (not_both_cover x0 y0 row rows)
      (rowsCover_cons x0 y0 row rows)

end Sys2Proof.Machine
end

