-- ==== Sys2Proof/Laws/Memory.lean ====
section
/-! SUPPORT. What the memory operations do: reads after writes, the canonical form, and the whole outcome of the checked
block accesses. -/

namespace Sys2Proof.Machine

/-! ### Reads and writes -/

/-- A write leaves every other address alone. -/
theorem read_write_of_ne (m : Memory) (a b : Nat) (v : Byte) (h : b ≠ a) : (m.write a v).read b = m.read b := by
  induction m with
  | nil => unfold Memory.write; split <;> simp [Memory.read, h]
  | cons c rest ih =>
    obtain ⟨c, w⟩ := c
    unfold Memory.write
    split
    · split <;> simp [Memory.read, h]
    · split
      · next hac => subst hac; split <;> simp [Memory.read, h]
      · simp [Memory.read, ih]

/-- Below every listed address, memory reads as unlisted. -/
theorem read_of_above (m : Memory) (a : Nat) (h : Memory.above a m = true) : m.read a = Memory.unlisted a := by
  induction m with
  | nil => rfl
  | cons c rest ih =>
    simp only [Memory.above, Bool.and_eq_true, decide_eq_true_eq] at h
    simp [Memory.read, Nat.ne_of_lt h.1, ih h.2]

theorem above_mono (m : Memory) {a b : Nat} (hab : a ≤ b) (h : Memory.above b m = true) : Memory.above a m = true := by
  induction m with
  | nil => rfl
  | cons c rest ih =>
    simp only [Memory.above, Bool.and_eq_true, decide_eq_true_eq] at h ⊢
    exact ⟨by omega, ih h.2⟩

theorem above_write (m : Memory) (lo a : Nat) (v : Byte) (hlo : lo < a) (h : Memory.above lo m = true) :
    Memory.above lo (m.write a v) = true := by
  induction m with
  | nil => unfold Memory.write; split <;> simp [Memory.above, hlo]
  | cons c rest ih =>
    simp only [Memory.above, Bool.and_eq_true, decide_eq_true_eq] at h
    unfold Memory.write
    split
    · split <;> simp [Memory.above, h, hlo]
    · split
      · split <;> simp [Memory.above, h, hlo]
      · simp [Memory.above, h, ih h.2]

theorem wf_cons (b : Nat) (v : Byte) (rest : Memory) :
    Memory.wf ((b, v) :: rest) = true ↔
      b < 4096 ∧ v ≠ Memory.unlisted b ∧ Memory.above b rest = true ∧ Memory.wf rest = true := by
  simp [Memory.wf, and_assoc]

/-- A write of a byte that exists keeps the canonical form. -/
theorem wf_write (m : Memory) (a : Nat) (v : Byte) (ha : a < 4096) (h : m.wf = true) : (m.write a v).wf = true := by
  induction m with
  | nil => unfold Memory.write; split <;> simp_all [Memory.wf, Memory.above]
  | cons c rest ih =>
    obtain ⟨b, w⟩ := c
    have hc := (wf_cons b w rest).mp h
    unfold Memory.write
    split
    · next hab =>
      split
      · exact h
      · next hv =>
        refine (wf_cons a v _).mpr ⟨ha, hv, ?_, h⟩
        simpa [Memory.above, hab] using above_mono rest hab.le hc.2.2.1
    · split
      · next hab =>
        subst hab
        split
        · exact hc.2.2.2
        · next hv => exact (wf_cons a v _).mpr ⟨ha, hv, hc.2.2⟩
      · exact (wf_cons b w _).mpr ⟨hc.1, hc.2.1, above_write rest b a v (by omega) hc.2.2.1, ih hc.2.2.2⟩

/-- A byte reads as it was written. -/
theorem read_write_self (m : Memory) (a : Nat) (v : Byte) (h : m.wf = true) : (m.write a v).read a = v := by
  induction m with
  | nil =>
    unfold Memory.write
    split
    · next hv => simp [Memory.read, hv]
    · simp [Memory.read]
  | cons c rest ih =>
    obtain ⟨b, w⟩ := c
    have hc := (wf_cons b w rest).mp h
    unfold Memory.write
    split
    · next hab =>
      split
      · next hv =>
        simp only [Memory.read, Nat.ne_of_lt hab, if_false]
        rw [hv]; exact read_of_above rest a (above_mono rest hab.le hc.2.2.1)
      · simp [Memory.read]
    · split
      · next hab =>
        subst hab
        split
        · next hv => rw [hv]; exact read_of_above rest a hc.2.2.1
        · simp [Memory.read]
      · next hne => simp [Memory.read, hne, ih hc.2.2.2]

/-- An address of 4096 or more is never listed. -/
theorem read_out_of_range (m : Memory) (a : Nat) (ha : 4096 ≤ a) (h : m.wf = true) : m.read a = Memory.unlisted a := by
  induction m with
  | nil => rfl
  | cons c rest ih =>
    obtain ⟨b, w⟩ := c
    have hc := (wf_cons b w rest).mp h
    have : a ≠ b := by omega
    simp [Memory.read, this, ih hc.2.2.2]

/-! ### Consecutive bytes -/

/-- Reading after writing consecutive bytes: the new byte inside them, the old one outside. -/
theorem read_writeFrom (vs : List Byte) : ∀ (m : Memory) (a b : Nat), m.wf = true → a + vs.length ≤ 4096 →
    (m.writeFrom a vs).read b = if a ≤ b ∧ b < a + vs.length then vs.getD (b - a) 0 else m.read b := by
  induction vs with
  | nil =>
    intro m a b _ _
    have : ¬(a ≤ b ∧ b < a + ([] : List Byte).length) := by simp
    simp only [Memory.writeFrom, this, if_false]
  | cons v vs ih =>
    intro m a b hm hl
    simp only [List.length_cons] at hl ⊢
    rw [Memory.writeFrom, ih _ _ _ (wf_write m a v (by omega) hm) (by omega)]
    by_cases hb : b = a
    · subst hb
      simp [read_write_self m b v hm]
    · by_cases h1 : a + 1 ≤ b ∧ b < a + 1 + vs.length
      · have h2 : a ≤ b ∧ b < a + (vs.length + 1) := by omega
        have h3 : b - a = (b - (a + 1)) + 1 := by omega
        simp only [h1, and_self, if_true, h2]
        rw [h3]; simp
      · have h2 : ¬(a ≤ b ∧ b < a + (vs.length + 1)) := by omega
        simp only [h1, h2, if_false]
        exact read_write_of_ne m a b v hb

/-- Outside the bytes written, nothing changes, canonical or not. -/
theorem read_writeFrom_outside (vs : List Byte) : ∀ (m : Memory) (a b : Nat), (b < a ∨ a + vs.length ≤ b) →
    (m.writeFrom a vs).read b = m.read b := by
  induction vs with
  | nil => intro m a b _; rfl
  | cons v vs ih =>
    intro m a b h
    simp only [List.length_cons] at h
    rw [Memory.writeFrom, ih _ _ _ (by omega), read_write_of_ne _ _ _ _ (by omega)]

/-- Consecutive bytes that exist keep the canonical form. -/
theorem wf_writeFrom (vs : List Byte) : ∀ (m : Memory) (a : Nat), m.wf = true → a + vs.length ≤ 4096 →
    (m.writeFrom a vs).wf = true := by
  induction vs with
  | nil => intro m a h _; exact h
  | cons v vs ih =>
    intro m a h hl
    simp only [List.length_cons] at hl
    exact ih _ _ (wf_write m a v (by omega) h) (by omega)

/-- The checked block write: in range it is the plain one, else it fails with the lowest address out of range (R62, R305). -/
theorem memWriteBytes_eq (vs : List Byte) : ∀ (m : Memory) (a : Nat),
    memWriteBytes m a vs =
      if vs = [] ∨ a + vs.length ≤ 4096 then .ok (m.writeFrom a vs) else .error (max 0x1000 a) := by
  induction vs with
  | nil => intro m a; simp [memWriteBytes, Memory.writeFrom]
  | cons v vs ih =>
    intro m a
    simp only [memWriteBytes, memWrite, List.length_cons, reduceCtorEq, false_or]
    by_cases ha : a ≤ 0xFFF
    · simp only [ha, if_true]
      rw [ih]
      by_cases hl : a + (vs.length + 1) ≤ 4096
      · have : vs = [] ∨ a + 1 + vs.length ≤ 4096 := .inr (by omega)
        simp [this, hl, Memory.writeFrom]
      · have hne : vs ≠ [] := by rintro rfl; simp at hl; omega
        have : ¬(vs = [] ∨ a + 1 + vs.length ≤ 4096) := by simp [hne]; omega
        simp only [this, hl, if_false]
        congr 1; omega
    · have h1 : ¬(a + (vs.length + 1) ≤ 4096) := by omega
      simp only [ha, h1, if_false]
      congr 1; omega

/-- The checked block read: in range the bytes in order, else it fails with the lowest address out of range (R61, R305). -/
theorem memReadBytes_eq (n : Nat) : ∀ (m : Memory) (a : Nat),
    memReadBytes m a n =
      if n = 0 ∨ a + n ≤ 4096 then .ok ((List.range n).map fun k => m.read (a + k)) else .error (max 0x1000 a) := by
  induction n with
  | zero => intro m a; simp [memReadBytes]
  | succ n ih =>
    intro m a
    simp only [memReadBytes, memRead, Nat.succ_ne_zero, false_or]
    by_cases ha : a ≤ 0xFFF
    · simp only [ha, if_true]
      rw [ih]
      by_cases hl : a + (n + 1) ≤ 4096
      · have : n = 0 ∨ a + 1 + n ≤ 4096 := .inr (by omega)
        simp only [this, hl, if_true]
        rw [List.range_succ_eq_map, List.map_cons, List.map_map]
        simp [Function.comp_def, Nat.add_assoc, Nat.add_comm 1]
      · have : ¬(n = 0 ∨ a + 1 + n ≤ 4096) := by omega
        simp only [this, hl, if_false]
        congr 1; omega
    · have h1 : ¬(a + (n + 1) ≤ 4096) := by omega
      simp only [ha, h1, if_false]
      congr 1; omega

/-- The checked block write keeps the canonical form. -/
theorem wf_memWriteBytes {vs : List Byte} {m m' : Memory} {a : Nat} (h : m.wf = true)
    (hw : memWriteBytes m a vs = .ok m') : m'.wf = true := by
  rw [memWriteBytes_eq] at hw
  split at hw
  · next hl =>
    cases hw
    rcases hl with rfl | hl
    · exact h
    · exact wf_writeFrom vs m a h hl
  · cases hw

/-- Loading a program keeps the canonical form (R352). -/
theorem wf_loadProgram (s : State) (image : List Byte) (h : s.mem.wf = true) :
    (s.loadProgram image).mem.wf = true := by
  refine wf_writeFrom _ _ _ h ?_
  rw [List.length_take]
  omega

/-- Reset memory is canonical. -/
theorem wf_reset : State.reset.mem.wf = true := rfl

/-- The whole of `Fetch` (R64). -/
theorem fetch_eq_some {m : Memory} {a w : Word} :
    fetch m a = some w ↔ a.toNat ≤ 0xFFE ∧ w = m.read a.toNat ++ m.read (a.toNat + 1) := by
  unfold fetch
  split
  · next h => simp [h, eq_comm]
  · next h => simp [h]

theorem fetch_eq_none {m : Memory} {a : Word} : fetch m a = none ↔ 0xFFE < a.toNat := by
  unfold fetch
  split
  · next h => simp; omega
  · next h => simp; omega

end Sys2Proof.Machine
end

