-- ==== Sys2Proof/Laws/State.lean ====
section
/-! SUPPORT. One lemma per field per update of the state, each true by `rfl`: what an update leaves in a field. -/

namespace Sys2Proof.Machine

/-! `State.setReg` -/

@[simp] theorem setReg_V (s : State) (x : Nibble) (v : Byte) : (s.setReg x v).V = s.V.set x.toNat v x.isLt := rfl
@[simp] theorem setReg_I (s : State) (x : Nibble) (v : Byte) : (s.setReg x v).I = s.I := rfl
@[simp] theorem setReg_pc (s : State) (x : Nibble) (v : Byte) : (s.setReg x v).pc = s.pc := rfl
@[simp] theorem setReg_stack (s : State) (x : Nibble) (v : Byte) : (s.setReg x v).stack = s.stack := rfl
@[simp] theorem setReg_mem (s : State) (x : Nibble) (v : Byte) : (s.setReg x v).mem = s.mem := rfl
@[simp] theorem setReg_fb (s : State) (x : Nibble) (v : Byte) : (s.setReg x v).fb = s.fb := rfl
@[simp] theorem setReg_DT (s : State) (x : Nibble) (v : Byte) : (s.setReg x v).DT = s.DT := rfl
@[simp] theorem setReg_ST (s : State) (x : Nibble) (v : Byte) : (s.setReg x v).ST = s.ST := rfl
@[simp] theorem setReg_run (s : State) (x : Nibble) (v : Byte) : (s.setReg x v).run = s.run := rfl
@[simp] theorem setReg_fbDirty (s : State) (x : Nibble) (v : Byte) : (s.setReg x v).fbDirty = s.fbDirty := rfl
@[simp] theorem setReg_reports (s : State) (x : Nibble) (v : Byte) : (s.setReg x v).reports = s.reports := rfl
@[simp] theorem setReg_fbSnapshot (s : State) (x : Nibble) (v : Byte) : (s.setReg x v).fbSnapshot = s.fbSnapshot := rfl
@[simp] theorem setReg_agenda (s : State) (x : Nibble) (v : Byte) : (s.setReg x v).agenda = s.agenda := rfl
@[simp] theorem setReg_randIn (s : State) (x : Nibble) (v : Byte) : (s.setReg x v).randIn = s.randIn := rfl
@[simp] theorem setReg_keysIn (s : State) (x : Nibble) (v : Byte) : (s.setReg x v).keysIn = s.keysIn := rfl
@[simp] theorem setReg_draws (s : State) (x : Nibble) (v : Byte) : (s.setReg x v).draws = s.draws := rfl

/-! `State.setRegsFrom0` -/

@[simp] theorem setRegsFrom0_V (s : State) (bs : List Byte) : (s.setRegsFrom0 bs).V = Vector.ofFn fun k : Fin 16 => bs.getD k.val (s.V[k.val]) := rfl
@[simp] theorem setRegsFrom0_I (s : State) (bs : List Byte) : (s.setRegsFrom0 bs).I = s.I := rfl
@[simp] theorem setRegsFrom0_pc (s : State) (bs : List Byte) : (s.setRegsFrom0 bs).pc = s.pc := rfl
@[simp] theorem setRegsFrom0_stack (s : State) (bs : List Byte) : (s.setRegsFrom0 bs).stack = s.stack := rfl
@[simp] theorem setRegsFrom0_mem (s : State) (bs : List Byte) : (s.setRegsFrom0 bs).mem = s.mem := rfl
@[simp] theorem setRegsFrom0_fb (s : State) (bs : List Byte) : (s.setRegsFrom0 bs).fb = s.fb := rfl
@[simp] theorem setRegsFrom0_DT (s : State) (bs : List Byte) : (s.setRegsFrom0 bs).DT = s.DT := rfl
@[simp] theorem setRegsFrom0_ST (s : State) (bs : List Byte) : (s.setRegsFrom0 bs).ST = s.ST := rfl
@[simp] theorem setRegsFrom0_run (s : State) (bs : List Byte) : (s.setRegsFrom0 bs).run = s.run := rfl
@[simp] theorem setRegsFrom0_fbDirty (s : State) (bs : List Byte) : (s.setRegsFrom0 bs).fbDirty = s.fbDirty := rfl
@[simp] theorem setRegsFrom0_reports (s : State) (bs : List Byte) : (s.setRegsFrom0 bs).reports = s.reports := rfl
@[simp] theorem setRegsFrom0_fbSnapshot (s : State) (bs : List Byte) : (s.setRegsFrom0 bs).fbSnapshot = s.fbSnapshot := rfl
@[simp] theorem setRegsFrom0_agenda (s : State) (bs : List Byte) : (s.setRegsFrom0 bs).agenda = s.agenda := rfl
@[simp] theorem setRegsFrom0_randIn (s : State) (bs : List Byte) : (s.setRegsFrom0 bs).randIn = s.randIn := rfl
@[simp] theorem setRegsFrom0_keysIn (s : State) (bs : List Byte) : (s.setRegsFrom0 bs).keysIn = s.keysIn := rfl
@[simp] theorem setRegsFrom0_draws (s : State) (bs : List Byte) : (s.setRegsFrom0 bs).draws = s.draws := rfl

/-! `State.setI` -/

@[simp] theorem setI_V (s : State) (v : Word) : (s.setI v).V = s.V := rfl
@[simp] theorem setI_I (s : State) (v : Word) : (s.setI v).I = v := rfl
@[simp] theorem setI_pc (s : State) (v : Word) : (s.setI v).pc = s.pc := rfl
@[simp] theorem setI_stack (s : State) (v : Word) : (s.setI v).stack = s.stack := rfl
@[simp] theorem setI_mem (s : State) (v : Word) : (s.setI v).mem = s.mem := rfl
@[simp] theorem setI_fb (s : State) (v : Word) : (s.setI v).fb = s.fb := rfl
@[simp] theorem setI_DT (s : State) (v : Word) : (s.setI v).DT = s.DT := rfl
@[simp] theorem setI_ST (s : State) (v : Word) : (s.setI v).ST = s.ST := rfl
@[simp] theorem setI_run (s : State) (v : Word) : (s.setI v).run = s.run := rfl
@[simp] theorem setI_fbDirty (s : State) (v : Word) : (s.setI v).fbDirty = s.fbDirty := rfl
@[simp] theorem setI_reports (s : State) (v : Word) : (s.setI v).reports = s.reports := rfl
@[simp] theorem setI_fbSnapshot (s : State) (v : Word) : (s.setI v).fbSnapshot = s.fbSnapshot := rfl
@[simp] theorem setI_agenda (s : State) (v : Word) : (s.setI v).agenda = s.agenda := rfl
@[simp] theorem setI_randIn (s : State) (v : Word) : (s.setI v).randIn = s.randIn := rfl
@[simp] theorem setI_keysIn (s : State) (v : Word) : (s.setI v).keysIn = s.keysIn := rfl
@[simp] theorem setI_draws (s : State) (v : Word) : (s.setI v).draws = s.draws := rfl

/-! `State.setPc` -/

@[simp] theorem setPc_V (s : State) (v : Word) : (s.setPc v).V = s.V := rfl
@[simp] theorem setPc_I (s : State) (v : Word) : (s.setPc v).I = s.I := rfl
@[simp] theorem setPc_pc (s : State) (v : Word) : (s.setPc v).pc = v := rfl
@[simp] theorem setPc_stack (s : State) (v : Word) : (s.setPc v).stack = s.stack := rfl
@[simp] theorem setPc_mem (s : State) (v : Word) : (s.setPc v).mem = s.mem := rfl
@[simp] theorem setPc_fb (s : State) (v : Word) : (s.setPc v).fb = s.fb := rfl
@[simp] theorem setPc_DT (s : State) (v : Word) : (s.setPc v).DT = s.DT := rfl
@[simp] theorem setPc_ST (s : State) (v : Word) : (s.setPc v).ST = s.ST := rfl
@[simp] theorem setPc_run (s : State) (v : Word) : (s.setPc v).run = s.run := rfl
@[simp] theorem setPc_fbDirty (s : State) (v : Word) : (s.setPc v).fbDirty = s.fbDirty := rfl
@[simp] theorem setPc_reports (s : State) (v : Word) : (s.setPc v).reports = s.reports := rfl
@[simp] theorem setPc_fbSnapshot (s : State) (v : Word) : (s.setPc v).fbSnapshot = s.fbSnapshot := rfl
@[simp] theorem setPc_agenda (s : State) (v : Word) : (s.setPc v).agenda = s.agenda := rfl
@[simp] theorem setPc_randIn (s : State) (v : Word) : (s.setPc v).randIn = s.randIn := rfl
@[simp] theorem setPc_keysIn (s : State) (v : Word) : (s.setPc v).keysIn = s.keysIn := rfl
@[simp] theorem setPc_draws (s : State) (v : Word) : (s.setPc v).draws = s.draws := rfl

/-! `State.setDT` -/

@[simp] theorem setDT_V (s : State) (v : Byte) : (s.setDT v).V = s.V := rfl
@[simp] theorem setDT_I (s : State) (v : Byte) : (s.setDT v).I = s.I := rfl
@[simp] theorem setDT_pc (s : State) (v : Byte) : (s.setDT v).pc = s.pc := rfl
@[simp] theorem setDT_stack (s : State) (v : Byte) : (s.setDT v).stack = s.stack := rfl
@[simp] theorem setDT_mem (s : State) (v : Byte) : (s.setDT v).mem = s.mem := rfl
@[simp] theorem setDT_fb (s : State) (v : Byte) : (s.setDT v).fb = s.fb := rfl
@[simp] theorem setDT_DT (s : State) (v : Byte) : (s.setDT v).DT = v := rfl
@[simp] theorem setDT_ST (s : State) (v : Byte) : (s.setDT v).ST = s.ST := rfl
@[simp] theorem setDT_run (s : State) (v : Byte) : (s.setDT v).run = s.run := rfl
@[simp] theorem setDT_fbDirty (s : State) (v : Byte) : (s.setDT v).fbDirty = s.fbDirty := rfl
@[simp] theorem setDT_reports (s : State) (v : Byte) : (s.setDT v).reports = s.reports := rfl
@[simp] theorem setDT_fbSnapshot (s : State) (v : Byte) : (s.setDT v).fbSnapshot = s.fbSnapshot := rfl
@[simp] theorem setDT_agenda (s : State) (v : Byte) : (s.setDT v).agenda = s.agenda := rfl
@[simp] theorem setDT_randIn (s : State) (v : Byte) : (s.setDT v).randIn = s.randIn := rfl
@[simp] theorem setDT_keysIn (s : State) (v : Byte) : (s.setDT v).keysIn = s.keysIn := rfl
@[simp] theorem setDT_draws (s : State) (v : Byte) : (s.setDT v).draws = s.draws := rfl

/-! `State.setST` -/

@[simp] theorem setST_V (s : State) (v : Byte) : (s.setST v).V = s.V := rfl
@[simp] theorem setST_I (s : State) (v : Byte) : (s.setST v).I = s.I := rfl
@[simp] theorem setST_pc (s : State) (v : Byte) : (s.setST v).pc = s.pc := rfl
@[simp] theorem setST_stack (s : State) (v : Byte) : (s.setST v).stack = s.stack := rfl
@[simp] theorem setST_mem (s : State) (v : Byte) : (s.setST v).mem = s.mem := rfl
@[simp] theorem setST_fb (s : State) (v : Byte) : (s.setST v).fb = s.fb := rfl
@[simp] theorem setST_DT (s : State) (v : Byte) : (s.setST v).DT = s.DT := rfl
@[simp] theorem setST_ST (s : State) (v : Byte) : (s.setST v).ST = v := rfl
@[simp] theorem setST_run (s : State) (v : Byte) : (s.setST v).run = s.run := rfl
@[simp] theorem setST_fbDirty (s : State) (v : Byte) : (s.setST v).fbDirty = s.fbDirty := rfl
@[simp] theorem setST_reports (s : State) (v : Byte) : (s.setST v).reports = s.reports := rfl
@[simp] theorem setST_fbSnapshot (s : State) (v : Byte) : (s.setST v).fbSnapshot = s.fbSnapshot := rfl
@[simp] theorem setST_agenda (s : State) (v : Byte) : (s.setST v).agenda = s.agenda := rfl
@[simp] theorem setST_randIn (s : State) (v : Byte) : (s.setST v).randIn = s.randIn := rfl
@[simp] theorem setST_keysIn (s : State) (v : Byte) : (s.setST v).keysIn = s.keysIn := rfl
@[simp] theorem setST_draws (s : State) (v : Byte) : (s.setST v).draws = s.draws := rfl

/-! `State.setStack` -/

@[simp] theorem setStack_V (s : State) (st : List Word) : (s.setStack st).V = s.V := rfl
@[simp] theorem setStack_I (s : State) (st : List Word) : (s.setStack st).I = s.I := rfl
@[simp] theorem setStack_pc (s : State) (st : List Word) : (s.setStack st).pc = s.pc := rfl
@[simp] theorem setStack_stack (s : State) (st : List Word) : (s.setStack st).stack = st := rfl
@[simp] theorem setStack_mem (s : State) (st : List Word) : (s.setStack st).mem = s.mem := rfl
@[simp] theorem setStack_fb (s : State) (st : List Word) : (s.setStack st).fb = s.fb := rfl
@[simp] theorem setStack_DT (s : State) (st : List Word) : (s.setStack st).DT = s.DT := rfl
@[simp] theorem setStack_ST (s : State) (st : List Word) : (s.setStack st).ST = s.ST := rfl
@[simp] theorem setStack_run (s : State) (st : List Word) : (s.setStack st).run = s.run := rfl
@[simp] theorem setStack_fbDirty (s : State) (st : List Word) : (s.setStack st).fbDirty = s.fbDirty := rfl
@[simp] theorem setStack_reports (s : State) (st : List Word) : (s.setStack st).reports = s.reports := rfl
@[simp] theorem setStack_fbSnapshot (s : State) (st : List Word) : (s.setStack st).fbSnapshot = s.fbSnapshot := rfl
@[simp] theorem setStack_agenda (s : State) (st : List Word) : (s.setStack st).agenda = s.agenda := rfl
@[simp] theorem setStack_randIn (s : State) (st : List Word) : (s.setStack st).randIn = s.randIn := rfl
@[simp] theorem setStack_keysIn (s : State) (st : List Word) : (s.setStack st).keysIn = s.keysIn := rfl
@[simp] theorem setStack_draws (s : State) (st : List Word) : (s.setStack st).draws = s.draws := rfl

/-! `State.push` -/

@[simp] theorem push_V (s : State) (v : Word) : (s.push v).V = s.V := rfl
@[simp] theorem push_I (s : State) (v : Word) : (s.push v).I = s.I := rfl
@[simp] theorem push_pc (s : State) (v : Word) : (s.push v).pc = s.pc := rfl
@[simp] theorem push_stack (s : State) (v : Word) : (s.push v).stack = v :: s.stack := rfl
@[simp] theorem push_mem (s : State) (v : Word) : (s.push v).mem = s.mem := rfl
@[simp] theorem push_fb (s : State) (v : Word) : (s.push v).fb = s.fb := rfl
@[simp] theorem push_DT (s : State) (v : Word) : (s.push v).DT = s.DT := rfl
@[simp] theorem push_ST (s : State) (v : Word) : (s.push v).ST = s.ST := rfl
@[simp] theorem push_run (s : State) (v : Word) : (s.push v).run = s.run := rfl
@[simp] theorem push_fbDirty (s : State) (v : Word) : (s.push v).fbDirty = s.fbDirty := rfl
@[simp] theorem push_reports (s : State) (v : Word) : (s.push v).reports = s.reports := rfl
@[simp] theorem push_fbSnapshot (s : State) (v : Word) : (s.push v).fbSnapshot = s.fbSnapshot := rfl
@[simp] theorem push_agenda (s : State) (v : Word) : (s.push v).agenda = s.agenda := rfl
@[simp] theorem push_randIn (s : State) (v : Word) : (s.push v).randIn = s.randIn := rfl
@[simp] theorem push_keysIn (s : State) (v : Word) : (s.push v).keysIn = s.keysIn := rfl
@[simp] theorem push_draws (s : State) (v : Word) : (s.push v).draws = s.draws := rfl

/-! `State.setMem` -/

@[simp] theorem setMem_V (s : State) (m : Memory) : (s.setMem m).V = s.V := rfl
@[simp] theorem setMem_I (s : State) (m : Memory) : (s.setMem m).I = s.I := rfl
@[simp] theorem setMem_pc (s : State) (m : Memory) : (s.setMem m).pc = s.pc := rfl
@[simp] theorem setMem_stack (s : State) (m : Memory) : (s.setMem m).stack = s.stack := rfl
@[simp] theorem setMem_mem (s : State) (m : Memory) : (s.setMem m).mem = m := rfl
@[simp] theorem setMem_fb (s : State) (m : Memory) : (s.setMem m).fb = s.fb := rfl
@[simp] theorem setMem_DT (s : State) (m : Memory) : (s.setMem m).DT = s.DT := rfl
@[simp] theorem setMem_ST (s : State) (m : Memory) : (s.setMem m).ST = s.ST := rfl
@[simp] theorem setMem_run (s : State) (m : Memory) : (s.setMem m).run = s.run := rfl
@[simp] theorem setMem_fbDirty (s : State) (m : Memory) : (s.setMem m).fbDirty = s.fbDirty := rfl
@[simp] theorem setMem_reports (s : State) (m : Memory) : (s.setMem m).reports = s.reports := rfl
@[simp] theorem setMem_fbSnapshot (s : State) (m : Memory) : (s.setMem m).fbSnapshot = s.fbSnapshot := rfl
@[simp] theorem setMem_agenda (s : State) (m : Memory) : (s.setMem m).agenda = s.agenda := rfl
@[simp] theorem setMem_randIn (s : State) (m : Memory) : (s.setMem m).randIn = s.randIn := rfl
@[simp] theorem setMem_keysIn (s : State) (m : Memory) : (s.setMem m).keysIn = s.keysIn := rfl
@[simp] theorem setMem_draws (s : State) (m : Memory) : (s.setMem m).draws = s.draws := rfl

/-! `State.paint` -/

@[simp] theorem paint_V (s : State) (f : Framebuffer) : (s.paint f).V = s.V := rfl
@[simp] theorem paint_I (s : State) (f : Framebuffer) : (s.paint f).I = s.I := rfl
@[simp] theorem paint_pc (s : State) (f : Framebuffer) : (s.paint f).pc = s.pc := rfl
@[simp] theorem paint_stack (s : State) (f : Framebuffer) : (s.paint f).stack = s.stack := rfl
@[simp] theorem paint_mem (s : State) (f : Framebuffer) : (s.paint f).mem = s.mem := rfl
@[simp] theorem paint_fb (s : State) (f : Framebuffer) : (s.paint f).fb = f := rfl
@[simp] theorem paint_DT (s : State) (f : Framebuffer) : (s.paint f).DT = s.DT := rfl
@[simp] theorem paint_ST (s : State) (f : Framebuffer) : (s.paint f).ST = s.ST := rfl
@[simp] theorem paint_run (s : State) (f : Framebuffer) : (s.paint f).run = s.run := rfl
@[simp] theorem paint_fbDirty (s : State) (f : Framebuffer) : (s.paint f).fbDirty = true := rfl
@[simp] theorem paint_reports (s : State) (f : Framebuffer) : (s.paint f).reports = s.reports := rfl
@[simp] theorem paint_fbSnapshot (s : State) (f : Framebuffer) : (s.paint f).fbSnapshot = s.fbSnapshot := rfl
@[simp] theorem paint_agenda (s : State) (f : Framebuffer) : (s.paint f).agenda = s.agenda := rfl
@[simp] theorem paint_randIn (s : State) (f : Framebuffer) : (s.paint f).randIn = s.randIn := rfl
@[simp] theorem paint_keysIn (s : State) (f : Framebuffer) : (s.paint f).keysIn = s.keysIn := rfl
@[simp] theorem paint_draws (s : State) (f : Framebuffer) : (s.paint f).draws = s.draws := rfl

/-! `State.setRun` -/

@[simp] theorem setRun_V (s : State) (r : RunState) : (s.setRun r).V = s.V := rfl
@[simp] theorem setRun_I (s : State) (r : RunState) : (s.setRun r).I = s.I := rfl
@[simp] theorem setRun_pc (s : State) (r : RunState) : (s.setRun r).pc = s.pc := rfl
@[simp] theorem setRun_stack (s : State) (r : RunState) : (s.setRun r).stack = s.stack := rfl
@[simp] theorem setRun_mem (s : State) (r : RunState) : (s.setRun r).mem = s.mem := rfl
@[simp] theorem setRun_fb (s : State) (r : RunState) : (s.setRun r).fb = s.fb := rfl
@[simp] theorem setRun_DT (s : State) (r : RunState) : (s.setRun r).DT = s.DT := rfl
@[simp] theorem setRun_ST (s : State) (r : RunState) : (s.setRun r).ST = s.ST := rfl
@[simp] theorem setRun_run (s : State) (r : RunState) : (s.setRun r).run = r := rfl
@[simp] theorem setRun_fbDirty (s : State) (r : RunState) : (s.setRun r).fbDirty = s.fbDirty := rfl
@[simp] theorem setRun_reports (s : State) (r : RunState) : (s.setRun r).reports = s.reports := rfl
@[simp] theorem setRun_fbSnapshot (s : State) (r : RunState) : (s.setRun r).fbSnapshot = s.fbSnapshot := rfl
@[simp] theorem setRun_agenda (s : State) (r : RunState) : (s.setRun r).agenda = s.agenda := rfl
@[simp] theorem setRun_randIn (s : State) (r : RunState) : (s.setRun r).randIn = s.randIn := rfl
@[simp] theorem setRun_keysIn (s : State) (r : RunState) : (s.setRun r).keysIn = s.keysIn := rfl
@[simp] theorem setRun_draws (s : State) (r : RunState) : (s.setRun r).draws = s.draws := rfl

/-! `State.halt` -/

@[simp] theorem halt_V (s : State) (r : HaltReason) : (s.halt r).V = s.V := rfl
@[simp] theorem halt_I (s : State) (r : HaltReason) : (s.halt r).I = s.I := rfl
@[simp] theorem halt_pc (s : State) (r : HaltReason) : (s.halt r).pc = s.pc := rfl
@[simp] theorem halt_stack (s : State) (r : HaltReason) : (s.halt r).stack = s.stack := rfl
@[simp] theorem halt_mem (s : State) (r : HaltReason) : (s.halt r).mem = s.mem := rfl
@[simp] theorem halt_fb (s : State) (r : HaltReason) : (s.halt r).fb = s.fb := rfl
@[simp] theorem halt_DT (s : State) (r : HaltReason) : (s.halt r).DT = s.DT := rfl
@[simp] theorem halt_ST (s : State) (r : HaltReason) : (s.halt r).ST = s.ST := rfl
@[simp] theorem halt_run (s : State) (r : HaltReason) : (s.halt r).run = .halted r := rfl
@[simp] theorem halt_fbDirty (s : State) (r : HaltReason) : (s.halt r).fbDirty = s.fbDirty := rfl
@[simp] theorem halt_reports (s : State) (r : HaltReason) : (s.halt r).reports = s.reports := rfl
@[simp] theorem halt_fbSnapshot (s : State) (r : HaltReason) : (s.halt r).fbSnapshot = s.fbSnapshot := rfl
@[simp] theorem halt_agenda (s : State) (r : HaltReason) : (s.halt r).agenda = s.agenda := rfl
@[simp] theorem halt_randIn (s : State) (r : HaltReason) : (s.halt r).randIn = s.randIn := rfl
@[simp] theorem halt_keysIn (s : State) (r : HaltReason) : (s.halt r).keysIn = s.keysIn := rfl
@[simp] theorem halt_draws (s : State) (r : HaltReason) : (s.halt r).draws = s.draws := rfl

/-! `State.report` -/

@[simp] theorem report_V (s : State) (r : LegacyReport) : (s.report r).V = s.V := rfl
@[simp] theorem report_I (s : State) (r : LegacyReport) : (s.report r).I = s.I := rfl
@[simp] theorem report_pc (s : State) (r : LegacyReport) : (s.report r).pc = s.pc := rfl
@[simp] theorem report_stack (s : State) (r : LegacyReport) : (s.report r).stack = s.stack := rfl
@[simp] theorem report_mem (s : State) (r : LegacyReport) : (s.report r).mem = s.mem := rfl
@[simp] theorem report_fb (s : State) (r : LegacyReport) : (s.report r).fb = s.fb := rfl
@[simp] theorem report_DT (s : State) (r : LegacyReport) : (s.report r).DT = s.DT := rfl
@[simp] theorem report_ST (s : State) (r : LegacyReport) : (s.report r).ST = s.ST := rfl
@[simp] theorem report_run (s : State) (r : LegacyReport) : (s.report r).run = s.run := rfl
@[simp] theorem report_fbDirty (s : State) (r : LegacyReport) : (s.report r).fbDirty = s.fbDirty := rfl
@[simp] theorem report_reports (s : State) (r : LegacyReport) : (s.report r).reports = s.reports ++ [r] := rfl
@[simp] theorem report_fbSnapshot (s : State) (r : LegacyReport) : (s.report r).fbSnapshot = s.fbSnapshot := rfl
@[simp] theorem report_agenda (s : State) (r : LegacyReport) : (s.report r).agenda = s.agenda := rfl
@[simp] theorem report_randIn (s : State) (r : LegacyReport) : (s.report r).randIn = s.randIn := rfl
@[simp] theorem report_keysIn (s : State) (r : LegacyReport) : (s.report r).keysIn = s.keysIn := rfl
@[simp] theorem report_draws (s : State) (r : LegacyReport) : (s.report r).draws = s.draws := rfl

/-! `State.handOff` -/

@[simp] theorem handOff_V (s : State) : (s.handOff).V = s.V := rfl
@[simp] theorem handOff_I (s : State) : (s.handOff).I = s.I := rfl
@[simp] theorem handOff_pc (s : State) : (s.handOff).pc = s.pc := rfl
@[simp] theorem handOff_stack (s : State) : (s.handOff).stack = s.stack := rfl
@[simp] theorem handOff_mem (s : State) : (s.handOff).mem = s.mem := rfl
@[simp] theorem handOff_fb (s : State) : (s.handOff).fb = s.fb := rfl
@[simp] theorem handOff_DT (s : State) : (s.handOff).DT = s.DT := rfl
@[simp] theorem handOff_ST (s : State) : (s.handOff).ST = s.ST := rfl
@[simp] theorem handOff_run (s : State) : (s.handOff).run = s.run := rfl
@[simp] theorem handOff_fbDirty (s : State) : (s.handOff).fbDirty = false := rfl
@[simp] theorem handOff_reports (s : State) : (s.handOff).reports = s.reports := rfl
@[simp] theorem handOff_fbSnapshot (s : State) : (s.handOff).fbSnapshot = some (Framebuffer.snapshot s.fb) := rfl
@[simp] theorem handOff_agenda (s : State) : (s.handOff).agenda = s.agenda := rfl
@[simp] theorem handOff_randIn (s : State) : (s.handOff).randIn = s.randIn := rfl
@[simp] theorem handOff_keysIn (s : State) : (s.handOff).keysIn = s.keysIn := rfl
@[simp] theorem handOff_draws (s : State) : (s.handOff).draws = s.draws := rfl

/-! `State.takeRand` -/

@[simp] theorem takeRand_V (s : State) : (s.takeRand).V = s.V := rfl
@[simp] theorem takeRand_I (s : State) : (s.takeRand).I = s.I := rfl
@[simp] theorem takeRand_pc (s : State) : (s.takeRand).pc = s.pc := rfl
@[simp] theorem takeRand_stack (s : State) : (s.takeRand).stack = s.stack := rfl
@[simp] theorem takeRand_mem (s : State) : (s.takeRand).mem = s.mem := rfl
@[simp] theorem takeRand_fb (s : State) : (s.takeRand).fb = s.fb := rfl
@[simp] theorem takeRand_DT (s : State) : (s.takeRand).DT = s.DT := rfl
@[simp] theorem takeRand_ST (s : State) : (s.takeRand).ST = s.ST := rfl
@[simp] theorem takeRand_run (s : State) : (s.takeRand).run = s.run := rfl
@[simp] theorem takeRand_fbDirty (s : State) : (s.takeRand).fbDirty = s.fbDirty := rfl
@[simp] theorem takeRand_reports (s : State) : (s.takeRand).reports = s.reports := rfl
@[simp] theorem takeRand_fbSnapshot (s : State) : (s.takeRand).fbSnapshot = s.fbSnapshot := rfl
@[simp] theorem takeRand_agenda (s : State) : (s.takeRand).agenda = s.agenda := rfl
@[simp] theorem takeRand_randIn (s : State) : (s.takeRand).randIn = s.randIn.tail := rfl
@[simp] theorem takeRand_keysIn (s : State) : (s.takeRand).keysIn = s.keysIn := rfl
@[simp] theorem takeRand_draws (s : State) : (s.takeRand).draws = s.draws + 1 := rfl

/-! `State.takeKeys` -/

@[simp] theorem takeKeys_V (s : State) : (s.takeKeys).V = s.V := rfl
@[simp] theorem takeKeys_I (s : State) : (s.takeKeys).I = s.I := rfl
@[simp] theorem takeKeys_pc (s : State) : (s.takeKeys).pc = s.pc := rfl
@[simp] theorem takeKeys_stack (s : State) : (s.takeKeys).stack = s.stack := rfl
@[simp] theorem takeKeys_mem (s : State) : (s.takeKeys).mem = s.mem := rfl
@[simp] theorem takeKeys_fb (s : State) : (s.takeKeys).fb = s.fb := rfl
@[simp] theorem takeKeys_DT (s : State) : (s.takeKeys).DT = s.DT := rfl
@[simp] theorem takeKeys_ST (s : State) : (s.takeKeys).ST = s.ST := rfl
@[simp] theorem takeKeys_run (s : State) : (s.takeKeys).run = s.run := rfl
@[simp] theorem takeKeys_fbDirty (s : State) : (s.takeKeys).fbDirty = s.fbDirty := rfl
@[simp] theorem takeKeys_reports (s : State) : (s.takeKeys).reports = s.reports := rfl
@[simp] theorem takeKeys_fbSnapshot (s : State) : (s.takeKeys).fbSnapshot = s.fbSnapshot := rfl
@[simp] theorem takeKeys_agenda (s : State) : (s.takeKeys).agenda = s.agenda := rfl
@[simp] theorem takeKeys_randIn (s : State) : (s.takeKeys).randIn = s.randIn := rfl
@[simp] theorem takeKeys_keysIn (s : State) : (s.takeKeys).keysIn = s.keysIn.tail := rfl
@[simp] theorem takeKeys_draws (s : State) : (s.takeKeys).draws = s.draws + 1 := rfl

/-! `State.setAgenda` -/

@[simp] theorem setAgenda_V (s : State) (g : Agenda) : (s.setAgenda g).V = s.V := rfl
@[simp] theorem setAgenda_I (s : State) (g : Agenda) : (s.setAgenda g).I = s.I := rfl
@[simp] theorem setAgenda_pc (s : State) (g : Agenda) : (s.setAgenda g).pc = s.pc := rfl
@[simp] theorem setAgenda_stack (s : State) (g : Agenda) : (s.setAgenda g).stack = s.stack := rfl
@[simp] theorem setAgenda_mem (s : State) (g : Agenda) : (s.setAgenda g).mem = s.mem := rfl
@[simp] theorem setAgenda_fb (s : State) (g : Agenda) : (s.setAgenda g).fb = s.fb := rfl
@[simp] theorem setAgenda_DT (s : State) (g : Agenda) : (s.setAgenda g).DT = s.DT := rfl
@[simp] theorem setAgenda_ST (s : State) (g : Agenda) : (s.setAgenda g).ST = s.ST := rfl
@[simp] theorem setAgenda_run (s : State) (g : Agenda) : (s.setAgenda g).run = s.run := rfl
@[simp] theorem setAgenda_fbDirty (s : State) (g : Agenda) : (s.setAgenda g).fbDirty = s.fbDirty := rfl
@[simp] theorem setAgenda_reports (s : State) (g : Agenda) : (s.setAgenda g).reports = s.reports := rfl
@[simp] theorem setAgenda_fbSnapshot (s : State) (g : Agenda) : (s.setAgenda g).fbSnapshot = s.fbSnapshot := rfl
@[simp] theorem setAgenda_agenda (s : State) (g : Agenda) : (s.setAgenda g).agenda = g := rfl
@[simp] theorem setAgenda_randIn (s : State) (g : Agenda) : (s.setAgenda g).randIn = s.randIn := rfl
@[simp] theorem setAgenda_keysIn (s : State) (g : Agenda) : (s.setAgenda g).keysIn = s.keysIn := rfl
@[simp] theorem setAgenda_draws (s : State) (g : Agenda) : (s.setAgenda g).draws = s.draws := rfl

end Sys2Proof.Machine
end

