-- ==== Sys2Proof/Laws/Registers.lean ====
section
/-! SUPPORT. What the register operations do: reading a register after each update. -/

namespace Sys2Proof.Machine

theorem reg_of_V_eq {s t : State} (h : t.V = s.V) (r : Nibble) : t.reg r = s.reg r := by
  simp [State.reg, h]

@[simp] theorem reg_setReg (s : State) (x : Nibble) (v : Byte) (r : Nibble) :
    (s.setReg x v).reg r = if r = x then v else s.reg r := by
  simp only [State.reg, State.setReg, Vector.getElem_set, BitVec.toNat_inj, eq_comm]

@[simp] theorem reg_setI (s : State) (v : Word) (r : Nibble) : (s.setI v).reg r = s.reg r := rfl
@[simp] theorem reg_setPc (s : State) (v : Word) (r : Nibble) : (s.setPc v).reg r = s.reg r := rfl
@[simp] theorem reg_setDT (s : State) (v : Byte) (r : Nibble) : (s.setDT v).reg r = s.reg r := rfl
@[simp] theorem reg_setST (s : State) (v : Byte) (r : Nibble) : (s.setST v).reg r = s.reg r := rfl
@[simp] theorem reg_setStack (s : State) (v : List Word) (r : Nibble) : (s.setStack v).reg r = s.reg r := rfl
@[simp] theorem reg_push (s : State) (v : Word) (r : Nibble) : (s.push v).reg r = s.reg r := rfl
@[simp] theorem reg_setMem (s : State) (m : Memory) (r : Nibble) : (s.setMem m).reg r = s.reg r := rfl
@[simp] theorem reg_paint (s : State) (f : Framebuffer) (r : Nibble) : (s.paint f).reg r = s.reg r := rfl
@[simp] theorem reg_setRun (s : State) (v : RunState) (r : Nibble) : (s.setRun v).reg r = s.reg r := rfl
@[simp] theorem reg_halt (s : State) (v : HaltReason) (r : Nibble) : (s.halt v).reg r = s.reg r := rfl
@[simp] theorem reg_report (s : State) (v : LegacyReport) (r : Nibble) : (s.report v).reg r = s.reg r := rfl
@[simp] theorem reg_handOff (s : State) (r : Nibble) : s.handOff.reg r = s.reg r := rfl
@[simp] theorem reg_takeRand (s : State) (r : Nibble) : s.takeRand.reg r = s.reg r := rfl
@[simp] theorem reg_takeKeys (s : State) (r : Nibble) : s.takeKeys.reg r = s.reg r := rfl
@[simp] theorem reg_setAgenda (s : State) (g : Agenda) (r : Nibble) : (s.setAgenda g).reg r = s.reg r := rfl

/-- Two states with the same registers have the same register file. -/
theorem V_ext {s t : State} (h : ∀ r, t.reg r = s.reg r) : t.V = s.V := by
  apply Vector.ext
  intro i hi
  simpa [State.reg, Nat.mod_eq_of_lt hi] using h (BitVec.ofNat 4 i)

/-- The whole of the flag write (R170): the flag in VF, the result in V[X] unless X = F, no other register. -/
@[simp] theorem reg_writeWithFlag (s : State) (x : Nibble) (v : Byte) (b : Bool) (r : Nibble) :
    (s.writeWithFlag x v b).reg r = if r = VF then flagByte b else if r = x then v else s.reg r := by
  simp [State.writeWithFlag]

/-- The block register load: register r takes byte r where there is one. -/
@[simp] theorem reg_setRegsFrom0 (s : State) (bs : List Byte) (r : Nibble) :
    (s.setRegsFrom0 bs).reg r = bs.getD r.toNat (s.reg r) := by
  simp [State.reg, State.setRegsFrom0]

theorem regsUpTo_length (s : State) (x : Nibble) : (s.regsUpTo x).length = x.toNat + 1 := by
  have := x.isLt
  simp [State.regsUpTo]; omega

theorem regsUpTo_getElem (s : State) (x : Nibble) (k : Nat) (h : k < (s.regsUpTo x).length) :
    (s.regsUpTo x)[k] = s.reg (BitVec.ofNat 4 k) := by
  have hx := x.isLt
  have hk : k < 16 := by rw [regsUpTo_length] at h; omega
  simp [State.regsUpTo, State.reg, Nat.mod_eq_of_lt hk]

/-! The skip and the block advance -/

@[simp] theorem reg_skipIf (s : State) (c : Bool) (r : Nibble) : (s.skipIf c).reg r = s.reg r := by
  cases c <;> rfl

theorem skipIf_eq (s : State) (c : Bool) : s.skipIf c = s.setPc (if c then s.pc + 2#16 else s.pc) := by
  cases c <;> rfl

/-- `LOADSTORE_INC_I` is false, so the block transfers leave I alone. -/
@[simp] theorem blockAdvance_loadStoreIncI (s : State) (x : Nibble) : s.blockAdvance loadStoreIncI x = s := rfl

/-- Everything the key query can do (R273, R274). -/
theorem keySkip_cases (down : Bool) (x : Nibble) (s : State) :
    (∃ h : (s.reg x).toNat < 16,
      keySkip down x s = .next (s.takeKeys.skipIf (s.keysNow[(s.reg x).toNat] == down))) ∨
    (16 ≤ (s.reg x).toNat ∧ keySkip down x s = .next (s.halt (.keyIndexOutOfRange (s.reg x) s.pc))) := by
  unfold keySkip
  by_cases h : (s.reg x).toNat < 16
  · exact .inl ⟨h, by simp [h]⟩
  · exact .inr ⟨by omega, by simp [h, takeFault]⟩

end Sys2Proof.Machine
end

