-- ==== Sys2Proof/Laws/Exec.lean ====
section
/-! SUPPORT. The instructions whose meaning branches, each with its whole outcome in one equation: in range or out of it. -/

namespace Sys2Proof.Machine

theorem takeFault_eq (s : State) (r : HaltReason) : takeFault s r = .next (s.halt r) := rfl

theorem decimalDigits_length (v : Byte) : (decimalDigits v).length = 3 := rfl

/-- FX33 (R223). -/
theorem execLdB_eq (x : Nibble) (s : State) :
    execLdB x s = .next (if s.I.toNat + 3 ≤ 4096 then s.setMem (s.mem.writeFrom s.I.toNat (decimalDigits (s.reg x)))
      else s.halt (.memoryOutOfRange (max 0x1000 s.I.toNat) s.pc)) := by
  unfold execLdB
  rw [memWriteBytes_eq, State.indexAddr]
  have hne : decimalDigits (s.reg x) ≠ [] := by simp [decimalDigits]
  by_cases h : s.I.toNat + 3 ≤ 4096 <;> simp [hne, decimalDigits_length, h, takeFault]

/-- FX55 (R224). -/
theorem execStore_eq (x : Nibble) (s : State) :
    execStore x s = .next (if s.I.toNat + (x.toNat + 1) ≤ 4096 then s.setMem (s.mem.writeFrom s.I.toNat (s.regsUpTo x))
      else s.halt (.memoryOutOfRange (max 0x1000 s.I.toNat) s.pc)) := by
  unfold execStore
  have hlen := regsUpTo_length s x
  have hne : s.regsUpTo x ≠ [] := by rw [← List.length_pos_iff]; omega
  rw [memWriteBytes_eq, State.indexAddr, hlen]
  by_cases h : s.I.toNat + (x.toNat + 1) ≤ 4096 <;> simp [hne, h, takeFault]

/-- FX65 (R225). -/
theorem execLoad_eq (x : Nibble) (s : State) :
    execLoad x s = .next (if s.I.toNat + (x.toNat + 1) ≤ 4096 then
        s.setRegsFrom0 ((List.range (x.toNat + 1)).map fun k => s.mem.read (s.I.toNat + k))
      else s.halt (.memoryOutOfRange (max 0x1000 s.I.toNat) s.pc)) := by
  unfold execLoad
  rw [memReadBytes_eq, State.indexAddr]
  by_cases h : s.I.toNat + (x.toNat + 1) ≤ 4096 <;> simp [h, takeFault]

/-- The sprite of DXYN as memory holds it. -/
def spriteRows (s : State) (n : Nibble) : List Byte := (List.range n.toNat).map fun k => s.mem.read (s.I.toNat + k)

/-- DXYN (R251). -/
theorem execDrw_eq (x y n : Nibble) (s : State) :
    execDrw x y n s = .next (if n.toNat = 0 ∨ s.I.toNat + n.toNat ≤ 4096 then
        (s.paint (Canvas.drawRows ⟨s.fb, false⟩ (s.startColumn x) (s.startRow y) (spriteRows s n)).fb).setReg VF
          (flagByte (Canvas.drawRows ⟨s.fb, false⟩ (s.startColumn x) (s.startRow y) (spriteRows s n)).collision)
      else s.halt (.memoryOutOfRange (max 0x1000 s.I.toNat) s.pc)) := by
  unfold execDrw
  rw [memReadBytes_eq, State.indexAddr]
  by_cases h : n.toNat = 0 ∨ s.I.toNat + n.toNat ≤ 4096
  · simp only [h, if_true]; rfl
  · simp only [h, if_false]; rfl

/-- EX9E and EXA1 (R273, R274) as one equation; `down` is whether the key is to be down. -/
theorem keySkip_eq (down : Bool) (x : Nibble) (s : State) :
    keySkip down x s = .next (if h : (s.reg x).toNat < 16 then
        s.takeKeys.skipIf (s.keysNow[(s.reg x).toNat] == down)
      else s.halt (.keyIndexOutOfRange (s.reg x) s.pc)) := by
  unfold keySkip
  by_cases h : (s.reg x).toNat < 16 <;> simp [h, takeFault]

/-- 00EE (R136). -/
theorem execRet_eq (s : State) :
    execRet s = .next (if s.stack = [] then s.halt (.stackUnderflow s.pc)
      else (s.setStack s.stack.tail).setPc (s.stack.headD 0)) := by
  unfold execRet
  cases h : s.stack with
  | nil => simp [takeFault]
  | cons a rest => simp

/-- 2NNN (R138). -/
theorem execCall_eq (nnn : Addr12) (s : State) :
    execCall nnn s = .next (if 16 ≤ s.stack.length then s.halt (.stackOverflow s.pc)
      else (s.push s.pc).setPc (addrOf nnn)) := by
  unfold execCall
  by_cases h : 16 ≤ s.stack.length <;> simp [h, takeFault]

end Sys2Proof.Machine
end

