-- ==== Sys2Proof/Laws/Cycle.lean ====
section
/-! SUPPORT. Everything a step can do: one inversion lemma for the instruction step, one for the core's turn and one for
the machine's step. -/

namespace Sys2Proof.Machine

theorem instructionStep_cases {s t : State} (h : instructionStep s = .next t) :
    (0xFFE < s.pc.toNat ∧ t = s.halt (.pcOutOfRange s.pc)) ∨
    (∃ w e, fetch s.mem s.pc = some w ∧ decode w = .error e ∧
      t = (s.setPc (s.pc + 2#16)).halt (.decodeFailure w s.pc)) ∨
    (∃ w i, fetch s.mem s.pc = some w ∧ decode w = .ok i ∧ exec i (s.setPc (s.pc + 2#16)) = .next t) := by
  unfold instructionStep at h
  split at h
  · next hf =>
    cases h
    exact .inl ⟨fetch_eq_none.mp hf, rfl⟩
  · next w hf =>
    unfold decodeAndExecute at h
    split at h
    · next e he =>
      cases h
      exact .inr (.inl ⟨w, e, hf, he, rfl⟩)
    · next i hi => exact .inr (.inr ⟨w, i, hf, hi, h⟩)

theorem coreTurn_cases {s t : State} (h : coreTurn s = .next t) :
    (s.run = .running ∧ instructionStep s = .next t) ∨ (∃ x, s.run = .waitingForKey x ∧ t = s) := by
  unfold coreTurn at h
  split at h
  · next hr => exact .inl ⟨hr, h⟩
  · next x hr =>
    cases h
    exact .inr ⟨x, hr, rfl⟩
  · exact absurd h (by simp)

theorem alive_iff (s : State) : s.alive = true ↔ ∀ r, s.run ≠ .halted r := by
  unfold State.alive
  split <;> simp_all

/-- A machine that is not halted makes the turn that is next, on the state with that turn taken. -/
theorem step_alive {s : State} (h : s.alive = true) : step s = takeTurn s.agenda.next (s.setAgenda s.agenda.rest) := by
  rw [alive_iff] at h
  unfold step machineStep
  split
  · next r hr => exact absurd hr (h r)
  · rfl
  · rfl

/-- A step is a turn of one agent, on the state with that turn taken off the agenda. -/
theorem step_cases {s t : State} (h : step s = .next t) :
    s.alive = true ∧ ∃ g : Agenda, coreTurn (s.setAgenda g) = .next t ∨ t = timerTick (s.setAgenda g) ∨
      t = redrawStep (s.setAgenda g) ∨ (∃ k, t = keyPressStep k (s.setAgenda g)) ∨ t = quitStep (s.setAgenda g) := by
  have ha : s.alive = true := by
    rw [alive_iff]
    intro r hr
    simp [step, machineStep, hr] at h
  rw [step_alive ha] at h
  refine ⟨ha, s.agenda.rest, ?_⟩
  revert h
  cases s.agenda.next with
  | core => exact .inl
  | tick => intro h; cases h; exact .inr (.inl rfl)
  | redraw => intro h; cases h; exact .inr (.inr (.inl rfl))
  | keyPress k => intro h; cases h; exact .inr (.inr (.inr (.inl ⟨k, rfl⟩)))
  | quit => intro h; cases h; exact .inr (.inr (.inr (.inr rfl)))

/-- Halted, the machine has no step (R310). -/
theorem step_halted {s : State} {r : HaltReason} (h : s.run = .halted r) : step s = .fault (.halted r) := by
  simp [step, machineStep, h]

end Sys2Proof.Machine
end

