-- ==== Sys2Proof/Laws/Decode.lean ====
section
/-! SUPPORT. The fields of a word written as its parts, one lemma per field and format of spec/30_encoding.md R91, and the
parts of any word. -/

namespace Sys2Proof

/-! ### Extracting from a concatenation -/

theorem extract_high {m n : Nat} (a : BitVec m) (b : BitVec n) (s l : Nat) (h : n ≤ s) :
    (a ++ b).extractLsb' s l = a.extractLsb' (s - n) l := by
  ext i hi
  have h1 : ¬(s + i < n) := by omega
  have h2 : s + i - n = s - n + i := by omega
  simp [BitVec.getLsbD_append, h1, h2]

theorem extract_low {m n : Nat} (a : BitVec m) (b : BitVec n) (s l : Nat) (h : s + l ≤ n) :
    (a ++ b).extractLsb' s l = b.extractLsb' s l := by
  ext i hi
  have : s + i < n := by omega
  simp [BitVec.getLsbD_append, this]

theorem extract_all {m : Nat} (a : BitVec m) : a.extractLsb' 0 m = a := by
  ext i hi
  simp

theorem append_extracts {m k : Nat} (w : BitVec (m + k)) : w.extractLsb' k m ++ w.extractLsb' 0 k = w := by
  simp

theorem extract_extract {m : Nat} (w : BitVec m) (s l s' l' : Nat) (h : s' + l' ≤ l) :
    (w.extractLsb' s l).extractLsb' s' l' = w.extractLsb' (s + s') l' := by
  ext i hi
  have : s' + i < l := by omega
  simp [this, Nat.add_assoc]

/-- The number a concatenation stands for. -/
theorem append_toNat {m n : Nat} (a : BitVec m) (b : BitVec n) : (a ++ b).toNat = a.toNat * 2 ^ n + b.toNat := by
  rw [BitVec.toNat_append, ← Nat.shiftLeft_add_eq_or_of_lt b.isLt, Nat.shiftLeft_eq]

/-! ### Format NNN -/

@[simp] theorem fieldOp_nnn (op : Nibble) (nnn : Addr12) : fieldOp (op ++ nnn) = op :=
  (extract_high op nnn 12 4 (by decide)).trans (extract_all op)
@[simp] theorem fieldNNN_nnn (op : Nibble) (nnn : Addr12) : fieldNNN (op ++ nnn) = nnn :=
  (extract_low op nnn 0 12 (by decide)).trans (extract_all nnn)

/-! ### Formats XNN and XKK -/

@[simp] theorem fieldOp_xnn (op x : Nibble) (nn : Byte) : fieldOp (op ++ x ++ nn) = op :=
  (extract_high (op ++ x) nn 12 4 (by decide)).trans <|
    (extract_high op x 4 4 (by decide)).trans (extract_all op)
@[simp] theorem fieldX_xnn (op x : Nibble) (nn : Byte) : fieldX (op ++ x ++ nn) = x :=
  (extract_high (op ++ x) nn 8 4 (by decide)).trans <|
    (extract_low op x 0 4 (by decide)).trans (extract_all x)
@[simp] theorem fieldNN_xnn (op x : Nibble) (nn : Byte) : fieldNN (op ++ x ++ nn) = nn :=
  (extract_low (op ++ x) nn 0 8 (by decide)).trans (extract_all nn)

/-! ### Format XYN -/

@[simp] theorem fieldOp_xyn (op x y n : Nibble) : fieldOp (op ++ x ++ y ++ n) = op :=
  (extract_high (op ++ x ++ y) n 12 4 (by decide)).trans <| (extract_high (op ++ x) y 8 4 (by decide)).trans <|
    (extract_high op x 4 4 (by decide)).trans (extract_all op)
@[simp] theorem fieldX_xyn (op x y n : Nibble) : fieldX (op ++ x ++ y ++ n) = x :=
  (extract_high (op ++ x ++ y) n 8 4 (by decide)).trans <| (extract_high (op ++ x) y 4 4 (by decide)).trans <|
    (extract_low op x 0 4 (by decide)).trans (extract_all x)
@[simp] theorem fieldY_xyn (op x y n : Nibble) : fieldY (op ++ x ++ y ++ n) = y :=
  (extract_high (op ++ x ++ y) n 4 4 (by decide)).trans <|
    (extract_low (op ++ x) y 0 4 (by decide)).trans (extract_all y)
@[simp] theorem fieldN_xyn (op x y n : Nibble) : fieldN (op ++ x ++ y ++ n) = n :=
  (extract_low (op ++ x ++ y) n 0 4 (by decide)).trans (extract_all n)

/-! ### Any word from its fields -/

theorem word_eq_nnn (w : Word) : fieldOp w ++ fieldNNN w = w := append_extracts (m := 4) (k := 12) w

theorem fieldNNN_eq (w : Word) : fieldX w ++ fieldNN w = fieldNNN w := by
  have h := append_extracts (m := 4) (k := 8) (fieldNNN w)
  rwa [fieldNNN, extract_extract _ _ _ _ _ (by decide), extract_extract _ _ _ _ _ (by decide)] at h

theorem fieldNN_eq (w : Word) : fieldY w ++ fieldN w = fieldNN w := by
  have h := append_extracts (m := 4) (k := 4) (fieldNN w)
  rwa [fieldNN, extract_extract _ _ _ _ _ (by decide), extract_extract _ _ _ _ _ (by decide)] at h

theorem append_assoc_word (op x : Nibble) (nn : Byte) : (op ++ x ++ nn : Word) = op ++ (x ++ nn : Addr12) := by
  have h := BitVec.append_assoc (x₁ := op) (x₂ := x) (x₃ := nn)
  simpa using h

theorem append_assoc_xnn (op x y n : Nibble) : (op ++ x ++ y ++ n : Word) = op ++ x ++ (y ++ n : Byte) := by
  have h := BitVec.append_assoc (x₁ := op ++ x) (x₂ := y) (x₃ := n)
  simpa using h

theorem word_eq_xnn (w : Word) : fieldOp w ++ fieldX w ++ fieldNN w = w := by
  rw [append_assoc_word, fieldNNN_eq, word_eq_nnn]

theorem word_eq_xyn (w : Word) : fieldOp w ++ fieldX w ++ fieldY w ++ fieldN w = w := by
  rw [append_assoc_xnn, fieldNN_eq, word_eq_xnn]

end Sys2Proof
end

