-- ==== Sys2Proof/Laws/Frame.lean ====
section
/-! SUPPORT. Frames: which parts of the state each update changes, and how frames compose. -/

namespace Sys2Proof.Machine

theorem Part_same_refl (p : Part) (s : State) : p.same s s := by
  cases p <;> simp [Part.same]

theorem Part_same_trans {p : Part} {s t u : State} (h1 : p.same s t) (h2 : p.same t u) : p.same s u := by
  cases p <;> simp_all [Part.same]

theorem onlyChanges_refl (ps : List Part) (s : State) : OnlyChanges ps s s := fun p _ => Part_same_refl p s

theorem onlyChanges_trans {ps qs : List Part} {s t u : State} (h1 : OnlyChanges ps s t) (h2 : OnlyChanges qs t u) :
    OnlyChanges (ps ++ qs) s u := by
  intro p hp
  simp only [List.mem_append, not_or] at hp
  exact Part_same_trans (h1 p hp.1) (h2 p hp.2)

theorem onlyChanges_mono {ps qs : List Part} {s t : State} (h : OnlyChanges ps s t) (hs : ps ⊆ qs) :
    OnlyChanges qs s t := fun p hp => h p fun hm => hp (hs hm)

theorem onlyChanges_setReg (s : State) (x : Nibble) (v : Byte) : OnlyChanges [.regs] s (s.setReg x v) := by
  intro p hp; cases p <;> simp_all [Part.same]
theorem onlyChanges_setRegsFrom0 (s : State) (bs : List Byte) : OnlyChanges [.regs] s (s.setRegsFrom0 bs) := by
  intro p hp; cases p <;> simp_all [Part.same]
theorem onlyChanges_setI (s : State) (v : Word) : OnlyChanges [.index] s (s.setI v) := by
  intro p hp; cases p <;> simp_all [Part.same]
theorem onlyChanges_setPc (s : State) (v : Word) : OnlyChanges [.pc] s (s.setPc v) := by
  intro p hp; cases p <;> simp_all [Part.same]
theorem onlyChanges_setDT (s : State) (v : Byte) : OnlyChanges [.delay] s (s.setDT v) := by
  intro p hp; cases p <;> simp_all [Part.same]
theorem onlyChanges_setST (s : State) (v : Byte) : OnlyChanges [.sound] s (s.setST v) := by
  intro p hp; cases p <;> simp_all [Part.same]
theorem onlyChanges_setStack (s : State) (st : List Word) : OnlyChanges [.stack] s (s.setStack st) := by
  intro p hp; cases p <;> simp_all [Part.same]
theorem onlyChanges_push (s : State) (v : Word) : OnlyChanges [.stack] s (s.push v) := by
  intro p hp; cases p <;> simp_all [Part.same]
theorem onlyChanges_setMem (s : State) (m : Memory) : OnlyChanges [.mem] s (s.setMem m) := by
  intro p hp; cases p <;> simp_all [Part.same]
theorem onlyChanges_paint (s : State) (f : Framebuffer) : OnlyChanges [.fb, .dirty] s (s.paint f) := by
  intro p hp; cases p <;> simp_all [Part.same]
theorem onlyChanges_setRun (s : State) (r : RunState) : OnlyChanges [.run] s (s.setRun r) := by
  intro p hp; cases p <;> simp_all [Part.same]
theorem onlyChanges_halt (s : State) (r : HaltReason) : OnlyChanges [.run] s (s.halt r) := by
  intro p hp; cases p <;> simp_all [Part.same]
theorem onlyChanges_report (s : State) (r : LegacyReport) : OnlyChanges [.reports] s (s.report r) := by
  intro p hp; cases p <;> simp_all [Part.same]
theorem onlyChanges_handOff (s : State) : OnlyChanges [.snapshot, .dirty] s (s.handOff) := by
  intro p hp; cases p <;> simp_all [Part.same]
theorem onlyChanges_takeRand (s : State) : OnlyChanges [.rand, .draws] s (s.takeRand) := by
  intro p hp; cases p <;> simp_all [Part.same]
theorem onlyChanges_takeKeys (s : State) : OnlyChanges [.keys, .draws] s (s.takeKeys) := by
  intro p hp; cases p <;> simp_all [Part.same]
theorem onlyChanges_setAgenda (s : State) (g : Agenda) : OnlyChanges [.agenda] s (s.setAgenda g) := by
  intro p hp; cases p <;> simp_all [Part.same]
theorem onlyChanges_writeWithFlag (s : State) (x : Nibble) (v : Byte) (b : Bool) : OnlyChanges [.regs] s (s.writeWithFlag x v b) := by
  intro p hp; cases p <;> simp_all [Part.same, State.writeWithFlag]
theorem onlyChanges_skipIf (s : State) (c : Bool) : OnlyChanges [.pc] s (s.skipIf c) := by
  rw [skipIf_eq]; exact onlyChanges_setPc s _

theorem haltsWith_takeFault (s : State) (r : HaltReason) : HaltsWith (takeFault s r) s r :=
  ⟨s.halt r, rfl, rfl, onlyChanges_halt s r⟩

end Sys2Proof.Machine
end

