-- ==== Sys2Proof/Laws/PerInstr.lean ====
section
/-! SUPPORT. Statements about every instruction as syntax, one lemma per constructor. `FamilyNibble`: the first nibble of
an instruction's word is its family's (spec/30_encoding.md R91, R94: "first nibble selects family"). -/

namespace Sys2Proof

/-- The `n3` of an instruction's row of R94. -/
def Instr.family : Instr → Nibble
  | .cls | .ret | .sys _ => 0x0#4
  | .jp _ => 0x1#4
  | .call _ => 0x2#4
  | .seImm _ _ => 0x3#4
  | .sneImm _ _ => 0x4#4
  | .seReg _ _ => 0x5#4
  | .ldImm _ _ => 0x6#4
  | .addImm _ _ => 0x7#4
  | .ldReg _ _ | .orReg _ _ | .andReg _ _ | .xorReg _ _ | .addReg _ _ => 0x8#4
  | .sub _ _ | .shr _ _ | .subn _ _ | .shl _ _ => 0x8#4
  | .sneReg _ _ => 0x9#4
  | .ldI _ => 0xA#4
  | .jpV0 _ => 0xB#4
  | .rnd _ _ => 0xC#4
  | .drw _ _ _ => 0xD#4
  | .skp _ | .sknp _ => 0xE#4
  | .ldFromDT _ | .ldKey _ | .ldDT _ | .ldST _ | .addI _ | .ldF _ | .ldB _ | .store _ | .load _ => 0xF#4

/-- The instruction's word begins with its family nibble. -/
def Laws.FamilyNibble.Statement (i : Instr) : Prop := fieldOp (encode i) = i.family

namespace Laws.FamilyNibble

theorem cls : Statement .cls := by unfold Statement; decide
theorem ret : Statement .ret := by unfold Statement; decide
theorem sys (nnn : Addr12) : Statement (.sys nnn) := fieldOp_nnn _ _
theorem jp (nnn : Addr12) : Statement (.jp nnn) := fieldOp_nnn _ _
theorem call (nnn : Addr12) : Statement (.call nnn) := fieldOp_nnn _ _
theorem seImm (x : Nibble) (nn : Byte) : Statement (.seImm x nn) := fieldOp_xnn _ _ _
theorem sneImm (x : Nibble) (nn : Byte) : Statement (.sneImm x nn) := fieldOp_xnn _ _ _
theorem seReg (x : Nibble) (y : Nibble) : Statement (.seReg x y) := fieldOp_xyn _ _ _ _
theorem ldImm (x : Nibble) (nn : Byte) : Statement (.ldImm x nn) := fieldOp_xnn _ _ _
theorem addImm (x : Nibble) (nn : Byte) : Statement (.addImm x nn) := fieldOp_xnn _ _ _
theorem ldReg (x : Nibble) (y : Nibble) : Statement (.ldReg x y) := fieldOp_xyn _ _ _ _
theorem orReg (x : Nibble) (y : Nibble) : Statement (.orReg x y) := fieldOp_xyn _ _ _ _
theorem andReg (x : Nibble) (y : Nibble) : Statement (.andReg x y) := fieldOp_xyn _ _ _ _
theorem xorReg (x : Nibble) (y : Nibble) : Statement (.xorReg x y) := fieldOp_xyn _ _ _ _
theorem addReg (x : Nibble) (y : Nibble) : Statement (.addReg x y) := fieldOp_xyn _ _ _ _
theorem sub (x : Nibble) (y : Nibble) : Statement (.sub x y) := fieldOp_xyn _ _ _ _
theorem shr (x : Nibble) (y : Nibble) : Statement (.shr x y) := fieldOp_xyn _ _ _ _
theorem subn (x : Nibble) (y : Nibble) : Statement (.subn x y) := fieldOp_xyn _ _ _ _
theorem shl (x : Nibble) (y : Nibble) : Statement (.shl x y) := fieldOp_xyn _ _ _ _
theorem sneReg (x : Nibble) (y : Nibble) : Statement (.sneReg x y) := fieldOp_xyn _ _ _ _
theorem ldI (nnn : Addr12) : Statement (.ldI nnn) := fieldOp_nnn _ _
theorem jpV0 (nnn : Addr12) : Statement (.jpV0 nnn) := fieldOp_nnn _ _
theorem rnd (x : Nibble) (nn : Byte) : Statement (.rnd x nn) := fieldOp_xnn _ _ _
theorem drw (x : Nibble) (y : Nibble) (n : Nibble) : Statement (.drw x y n) := fieldOp_xyn _ _ _ _
theorem skp (x : Nibble) : Statement (.skp x) := fieldOp_xnn _ _ _
theorem sknp (x : Nibble) : Statement (.sknp x) := fieldOp_xnn _ _ _
theorem ldFromDT (x : Nibble) : Statement (.ldFromDT x) := fieldOp_xnn _ _ _
theorem ldKey (x : Nibble) : Statement (.ldKey x) := fieldOp_xnn _ _ _
theorem ldDT (x : Nibble) : Statement (.ldDT x) := fieldOp_xnn _ _ _
theorem ldST (x : Nibble) : Statement (.ldST x) := fieldOp_xnn _ _ _
theorem addI (x : Nibble) : Statement (.addI x) := fieldOp_xnn _ _ _
theorem ldF (x : Nibble) : Statement (.ldF x) := fieldOp_xnn _ _ _
theorem ldB (x : Nibble) : Statement (.ldB x) := fieldOp_xnn _ _ _
theorem store (x : Nibble) : Statement (.store x) := fieldOp_xnn _ _ _
theorem load (x : Nibble) : Statement (.load x) := fieldOp_xnn _ _ _

end Laws.FamilyNibble

end Sys2Proof
end

