-- ==== Sys2Proof/Laws/Turns.lean ====
section
/-! SUPPORT. Whose turn it is: the agenda's own functions and what Safety.lean says of them, and a step of the agent that has
the turn. -/

namespace Sys2Proof.Machine

/-- What an agenda yields is its `next` and its `rest`. -/
theorem yields_iff {g g' : Agenda} {a : Turn} : g.Yields a g' ↔ a = g.next ∧ g' = g.rest := by
  obtain ⟨l, c, n⟩ := g
  cases l with
  | cons b ts => simp [Agenda.Yields, Agenda.next, Agenda.rest, and_assoc, eq_comm]
  | nil =>
    cases c with
    | cons b ts => simp [Agenda.Yields, Agenda.next, Agenda.rest, and_assoc, eq_comm]
    | nil => simp [Agenda.Yields, Agenda.next, Agenda.rest, eq_comm]

theorem hasTurn_iff {a : Turn} {s u : State} : HasTurn a s u ↔ a = s.agenda.next ∧ u = s.setAgenda s.agenda.rest := by
  constructor
  · rintro ⟨g, hg, rfl⟩
    obtain ⟨rfl, rfl⟩ := yields_iff.mp hg
    exact ⟨rfl, rfl⟩
  · rintro ⟨rfl, rfl⟩
    exact ⟨_, yields_iff.mpr ⟨rfl, rfl⟩, rfl⟩

/-- A turn listed first. -/
theorem hasTurn_listed {a : Turn} {ts c : List Turn} {n : Nat} {s : State} (h : s.agenda = ⟨a :: ts, c, n⟩) :
    HasTurn a s (s.setAgenda ⟨ts, c, n⟩) := hasTurn_iff.mpr (by rw [h]; exact ⟨rfl, rfl⟩)

/-- A turn that begins the cycle, with none listed. -/
theorem hasTurn_cycle {a : Turn} {ts : List Turn} {n : Nat} {s : State} (h : s.agenda = ⟨[], a :: ts, n⟩) :
    HasTurn a s (s.setAgenda ⟨ts, a :: ts, n⟩) := hasTurn_iff.mpr (by rw [h]; exact ⟨rfl, rfl⟩)

theorem notHalted_iff {s : State} : NotHalted s ↔ s.alive = true := by
  unfold NotHalted State.alive
  split <;> simp_all

/-- The agent that has the turn makes its step. -/
theorem step_of_hasTurn {a : Turn} {s u : State} (hn : NotHalted s) (h : HasTurn a s u) : step s = takeTurn a u := by
  obtain ⟨rfl, rfl⟩ := hasTurn_iff.mp h
  exact step_alive (notHalted_iff.mp hn)

/-- The next turn is one that may come. -/
theorem mayYield_next (g : Agenda) : g.MayYield g.next := by
  obtain ⟨l, c, n⟩ := g
  cases l with
  | cons b ts => exact .inl (by simp [Agenda.next])
  | nil =>
    cases c with
    | cons b ts => exact .inr (.inl (by simp [Agenda.next]))
    | nil => exact .inr (.inr ⟨rfl, n, Nat.le_refl n, rfl⟩)

/-- Taking a turn brings no new one. -/
theorem mayYield_rest {g : Agenda} {a : Turn} (h : g.rest.MayYield a) : g.MayYield a := by
  obtain ⟨l, c, n⟩ := g
  cases l with
  | cons b ts => exact h.imp (List.mem_cons_of_mem b) id
  | nil =>
    cases c with
    | cons b ts => exact h.elim (fun h => .inr (.inl (List.mem_cons_of_mem b h))) .inr
    | nil => exact .inr (h.elim (fun h => absurd h List.not_mem_nil)
        (Or.imp id fun ⟨hc, m, hm, e⟩ => ⟨hc, m, Nat.le_of_succ_le hm, e⟩))

theorem leavesWaiting_rest {g : Agenda} (h : g.LeavesWaiting) : g.rest.LeavesWaiting := fun a ha => h a (mayYield_rest ha)

theorem fairToTimer_rest {g : Agenda} (h : g.FairToTimer) : g.rest.FairToTimer := by
  obtain ⟨l, c, n⟩ := g
  cases l with
  | cons b ts => exact h
  | nil => cases c <;> exact h

end Sys2Proof.Machine
end

