-- ==== Sys2Proof/Tests/Slice0.lean ====
section
/-! SUPPORT. The model's own tests: the refusals of WellFormed, one word for every constructor written out from the pattern
column of spec/30_encoding.md R94, single steps whose results are the vectors of spec/95_test_vectors.md, and a witness for
the hypotheses of every statement that has some. -/

namespace Sys2Proof.Tests

open Sys2Proof.Machine

/-! ### Helpers -/

/-- The machine after reset with no agent but the core ever taking a turn. -/
def alone : State := State.reset.coreAlone

/-- Turns to come first, and then the core's for ever. -/
def turns (ts : List Turn) : Agenda := ⟨ts, [.core], 0⟩

/-- The machine after reset with one word at 0x200, about to run it. -/
def at200 (w : Word) : State := State.reset.withFetchWord 16 w.toNat

/-- The same with VF = 0x5A, as the ALU vectors have it. -/
def alu (w : Word) (rs : List (Nibble × Byte)) : State :=
  rs.foldl (fun s r => s.setReg r.1 r.2) ((at200 w).setReg 0xF 0x5A)

/-- The machine with bytes at an address. -/
def withBytes (s : State) (a : Nat) (bs : List Byte) : State := s.setMem (s.mem.writeFrom a bs)

/-- What is seen of the state after one step; nothing where there is none. -/
def see {α : Type} (s : State) (f : State → α) : Option α :=
  match step s with
  | .next t => some (f t)
  | .fault _ => none
  | .refused _ => none

/-- VX, VF after one ALU step. -/
def aluSees (w : Word) (rs : List (Nibble × Byte)) (x : Nibble) : Option (Byte × Byte) :=
  see (alu w rs) fun t => (t.reg x, t.reg 0xF)

/-! ### WellFormed (R94 row 3) -/

theorem test_wf_refuses_sys_000 : Instr.wf (.sys 0x000) = false := by decide
theorem test_wf_refuses_sys_0E0 : Instr.wf (.sys 0x0E0) = false := by decide
theorem test_wf_refuses_sys_0EE : Instr.wf (.sys 0x0EE) = false := by decide
theorem test_wf_takes_sys_0E1 : Instr.wf (.sys 0x0E1) = true := by decide

/-! ### Decoding: family nibble, then the fields in the order of the pattern, bit by bit -/

theorem test_decode_cls : decode 0b0000000011100000#16 = .ok .cls := by decide
theorem test_decode_ret : decode 0b0000000011101110#16 = .ok .ret := by decide
theorem test_decode_sys : decode 0b0000111111111111#16 = .ok (.sys 0xFFF) := by decide
theorem test_decode_jp : decode 0b0001101010111100#16 = .ok (.jp 0xABC) := by decide
theorem test_decode_call : decode 0b0010101010111100#16 = .ok (.call 0xABC) := by decide
theorem test_decode_seImm : decode 0b0011000111111111#16 = .ok (.seImm 0x1 0xFF) := by decide
theorem test_decode_sneImm : decode 0b0100001100000110#16 = .ok (.sneImm 0x3 0x06) := by decide
theorem test_decode_seReg : decode 0b0101000100100000#16 = .ok (.seReg 0x1 0x2) := by decide
theorem test_decode_ldImm : decode 0b0110101001000010#16 = .ok (.ldImm 0xA 0x42) := by decide
theorem test_decode_addImm : decode 0b0111000100000001#16 = .ok (.addImm 0x1 0x01) := by decide
theorem test_decode_ldReg : decode 0b1000000100100000#16 = .ok (.ldReg 0x1 0x2) := by decide
theorem test_decode_orReg : decode 0b1000000100100001#16 = .ok (.orReg 0x1 0x2) := by decide
theorem test_decode_andReg : decode 0b1000000100100010#16 = .ok (.andReg 0x1 0x2) := by decide
theorem test_decode_xorReg : decode 0b1000000100100011#16 = .ok (.xorReg 0x1 0x2) := by decide
theorem test_decode_addReg : decode 0b1000000100100100#16 = .ok (.addReg 0x1 0x2) := by decide
theorem test_decode_sub : decode 0b1000000100100101#16 = .ok (.sub 0x1 0x2) := by decide
theorem test_decode_shr : decode 0b1000000100100110#16 = .ok (.shr 0x1 0x2) := by decide
theorem test_decode_subn : decode 0b1000000100100111#16 = .ok (.subn 0x1 0x2) := by decide
theorem test_decode_shl : decode 0b1000000100101110#16 = .ok (.shl 0x1 0x2) := by decide
theorem test_decode_sneReg : decode 0b1001000100100000#16 = .ok (.sneReg 0x1 0x2) := by decide
theorem test_decode_ldI : decode 0b1010101010111100#16 = .ok (.ldI 0xABC) := by decide
theorem test_decode_jpV0 : decode 0b1011101010111100#16 = .ok (.jpV0 0xABC) := by decide
theorem test_decode_rnd : decode 0b1100001100001111#16 = .ok (.rnd 0x3 0x0F) := by decide
theorem test_decode_drw : decode 0b1101000100100011#16 = .ok (.drw 0x1 0x2 0x3) := by decide
theorem test_decode_skp : decode 0b1110000110011110#16 = .ok (.skp 0x1) := by decide
theorem test_decode_sknp : decode 0b1110000110100001#16 = .ok (.sknp 0x1) := by decide
theorem test_decode_ldFromDT : decode 0b1111010100000111#16 = .ok (.ldFromDT 0x5) := by decide
theorem test_decode_ldKey : decode 0b1111001100001010#16 = .ok (.ldKey 0x3) := by decide
theorem test_decode_ldDT : decode 0b1111010100010101#16 = .ok (.ldDT 0x5) := by decide
theorem test_decode_ldST : decode 0b1111010100011000#16 = .ok (.ldST 0x5) := by decide
theorem test_decode_addI : decode 0b1111001000011110#16 = .ok (.addI 0x2) := by decide
theorem test_decode_ldF : decode 0b1111000100101001#16 = .ok (.ldF 0x1) := by decide
theorem test_decode_ldB : decode 0b1111001100110011#16 = .ok (.ldB 0x3) := by decide
theorem test_decode_store : decode 0b1111000101010101#16 = .ok (.store 0x1) := by decide
theorem test_decode_load : decode 0b1111111101100101#16 = .ok (.load 0xF) := by decide

/-- The invalid words of V-DEC. -/
theorem test_decode_invalid_words :
    [0x0000, 0x5121, 0x512F, 0x8128, 0x812D, 0x812F, 0x9121, 0xE09F, 0xE0A2, 0xF008, 0xF030, 0xFFFF].all
      (fun w => illegalWord w) = true := by decide

/-- The high byte is the first (R63). -/
theorem test_decode_bytes : decodeBytes [0x12#8, 0x34#8, 0x56#8] = .ok (.jp 0x234, [0x56#8]) := by decide
theorem test_decode_bytes_truncated : decodeBytes [0x12#8] = .error .truncated := by decide
theorem test_decode_table_word : decodeTableWord 16 0x8127 = some (.subn 0x1 0x2) := by decide
theorem test_encode_drw : encode (.drw 0x1 0x2 0x3) = 0xD123#16 := by decide

/-! ### Fetch and the instruction step (V-FETCH) -/

theorem test_fetch_odd_pc :
    see ((withBytes alone 0x201 [0x12, 0x34]).setPc 0x201) (·.pc) = some 0x234 := by decide
theorem test_fetch_last_word :
    see ((withBytes alone 0xFFE [0x60, 0x07]).setPc 0xFFE) (fun t => (t.reg 0, t.pc)) = some (0x07, 0x1000) := by
  decide
theorem test_fetch_beyond :
    see (alone.setPc 0xFFF) (fun t => (t.run, t.pc)) = some (.halted (.pcOutOfRange 0xFFF), 0xFFF) := by decide
theorem test_illegal_word :
    see (at200 0xFFFF) (fun t => (t.run, t.pc)) = some (.halted (.decodeFailure 0xFFFF 0x200), 0x202) := by decide
/-- With nothing placed the core's first turn meets the word 0x0000 (V-FETCH, log 9). -/
theorem test_core_steps_into_zero_word :
    see alone (fun t => (t.run, t.pc)) = some (.halted (.decodeFailure 0x0000 0x200), 0x202) := by decide

/-! ### Control transfer and skips (V-CF) -/

theorem test_sys : see (at200 0x0123) (fun t => (t.reports, t.pc)) = some ([⟨0x0123, 0x200, 0x123⟩], 0x202) := by decide
theorem test_ret :
    see ((at200 0x00EE).setStack [0x0202]) (fun t => (t.pc, t.stack)) = some (0x0202, []) := by decide
theorem test_ret_empty :
    see (at200 0x00EE) (fun t => (t.run, t.pc)) = some (.halted (.stackUnderflow 0x202), 0x202) := by decide
theorem test_jp : see (at200 0x1234) (·.pc) = some 0x234 := by decide
theorem test_call_last_entry :
    see ((at200 0x2300).setStack (List.replicate 15 0x400)) (fun t => (t.stack.length, t.stack.head?, t.pc)) =
      some (16, some 0x202, 0x300) := by decide
theorem test_call_full :
    see ((at200 0x2300).setStack (List.replicate 16 0x400)) (fun t => (t.run, t.stack.length, t.pc)) =
      some (.halted (.stackOverflow 0x202), 16, 0x202) := by decide
theorem test_jpV0_beyond : see (alu 0xBFFF [(0, 0xFF)]) (·.pc) = some 0x10FE := by decide
theorem test_jpV0_reads_v0_only : see (alu 0xB300 [(3, 0x10)]) (·.pc) = some 0x300 := by decide
theorem test_seImm_taken : see (alu 0x31FF [(1, 0xFF)]) (·.pc) = some 0x204 := by decide
theorem test_seImm_not_taken : see (alu 0x31FF [(1, 0xFE)]) (·.pc) = some 0x202 := by decide
theorem test_sneImm_taken : see (alu 0x4306 [(3, 0x05)]) (·.pc) = some 0x204 := by decide
theorem test_sneImm_not_taken : see (alu 0x4306 [(3, 0x06)]) (·.pc) = some 0x202 := by decide
theorem test_seReg_taken : see (alu 0x5120 [(1, 7), (2, 7)]) (·.pc) = some 0x204 := by decide
theorem test_sneReg_taken : see (alu 0x9120 [(1, 7), (2, 8)]) (·.pc) = some 0x204 := by decide
theorem test_sneReg_same : see (alu 0x9110 [(1, 7)]) (·.pc) = some 0x202 := by decide

/-! ### ALU (V-ALU): V[X], then VF -/

theorem test_ldImm : aluSees 0x6A42 [] 0xA = some (0x42, 0x5A) := by decide
theorem test_addImm_wraps : aluSees 0x7101 [(1, 0xFF)] 1 = some (0x00, 0x5A) := by decide
theorem test_addImm_to_vf : aluSees 0x7F01 [(0xF, 0xFF)] 0xF = some (0x00, 0x00) := by decide
theorem test_ldReg : aluSees 0x8120 [(2, 0x33)] 1 = some (0x33, 0x5A) := by decide
theorem test_orReg : aluSees 0x8121 [(1, 0x0F), (2, 0xF0)] 1 = some (0xFF, 0x5A) := by decide
theorem test_andReg : aluSees 0x8122 [(1, 0x3C), (2, 0x0F)] 1 = some (0x0C, 0x5A) := by decide
theorem test_xorReg : aluSees 0x8123 [(1, 0xFF), (2, 0x0F)] 1 = some (0xF0, 0x5A) := by decide
theorem test_addReg_no_signed_flag : aluSees 0x8124 [(1, 0x7F), (2, 0x01)] 1 = some (0x80, 0) := by decide
theorem test_addReg_old_vf_is_operand : aluSees 0x81F4 [(1, 0x01), (0xF, 0xFF)] 1 = some (0x00, 1) := by decide
theorem test_sub_borrows : aluSees 0x8125 [(1, 0x00), (2, 0x05)] 1 = some (0xFB, 1) := by decide
theorem test_sub_equal : aluSees 0x8125 [(1, 0x05), (2, 0x05)] 1 = some (0x00, 0) := by decide
theorem test_shr_ignores_y : aluSees 0x8126 [(1, 0x04), (2, 0xFF)] 1 = some (0x02, 0) := by decide
theorem test_shr_flag_overwrites : aluSees 0x8F06 [(0xF, 0x02)] 0xF = some (0, 0) := by decide
theorem test_subn : aluSees 0x8127 [(1, 0x02), (2, 0x03)] 1 = some (0x01, 0) := by decide
theorem test_subn_borrows : aluSees 0x8127 [(1, 0x05), (2, 0x00)] 1 = some (0xFB, 1) := by decide
theorem test_shl : aluSees 0x810E [(1, 0x81)] 1 = some (0x02, 1) := by decide
theorem test_shl_flag_overwrites : aluSees 0x8F0E [(0xF, 0x40)] 0xF = some (0, 0) := by decide
theorem test_rnd_masks :
    see { alu 0xC30F [] with randIn := [0xB7, 0x11] } (fun t => (t.reg 3, t.reg 0xF, t.randIn)) =
      some (0x07, 0x5A, [0x11]) := by decide

/-! ### Index register and memory (V-MEM) -/

theorem test_ldI : see (at200 0xAFFF) (·.I) = some 0xFFF := by decide
theorem test_addI_past_memory :
    see ((alu 0xF21E [(2, 0x01)]).setI 0xFFF) (fun t => (t.I, t.reg 0xF)) = some (0x1000, 0x5A) := by decide
theorem test_addI_wraps : see ((alu 0xF21E [(2, 0x02)]).setI 0xFFFF) (·.I) = some 0x0001 := by decide
/-- FONT_ADDR is whatever it is (log 7). -/
theorem test_ldF : see (alu 0xF129 [(1, 0x0A)]) (·.I) = some (Config.fontAddr 0x0A) := by rfl
theorem test_ldB :
    see ((alu 0xF333 [(3, 156)]).setI 0x300)
      (fun t => (t.mem.read 0x300, t.mem.read 0x301, t.mem.read 0x302, t.I)) = some (1, 5, 6, 0x300) := by decide
theorem test_ldB_beyond :
    see ((alu 0xF333 [(3, 156)]).setI 0xFFE) (fun t => (t.run, t.mem.read 0xFFE, t.mem.read 0xFFF)) =
      some (.halted (.memoryOutOfRange 0x1000 0x202), 0, 0) := by decide
theorem test_store :
    see ((alu 0xF155 [(0, 0x11), (1, 0x22), (2, 0x33)]).setI 0x300)
      (fun t => (t.mem.read 0x300, t.mem.read 0x301, t.mem.read 0x302, t.I)) = some (0x11, 0x22, 0, 0x300) := by decide
theorem test_store_beyond :
    see ((alu 0xFF55 [(0, 0x11)]).setI 0xFF1) (fun t => (t.run, t.mem.read 0xFF1)) =
      some (.halted (.memoryOutOfRange 0x1000 0x202), 0) := by decide
theorem test_load_last :
    see ((withBytes (alu 0xFF65 []) 0x40F [0x77]).setI 0x400) (fun t => (t.reg 0xF, t.I)) = some (0x77, 0x400) := by
  decide
theorem test_load_beyond :
    see ((alu 0xF065 [(0, 0x11)]).setI 0x1000) (fun t => (t.run, t.reg 0)) =
      some (.halted (.memoryOutOfRange 0x1000 0x202), 0x11) := by decide

/-! ### Framebuffer (V-DRW) -/

theorem test_cls :
    see ((alu 0x00E0 []).paint (Framebuffer.blank.setPixel 5 5 true))
      (fun t => (Framebuffer.pixel t.fb 5 5, t.fbDirty, t.reg 0xF)) = some (false, true, 0x5A) := by decide
theorem test_drw_clips_right :
    see ((withBytes (alu 0xD011 [(0, 60)]) 0x300 [0xFF]).setI 0x300)
      (fun t => (Framebuffer.pixel t.fb 59 0, Framebuffer.pixel t.fb 60 0, Framebuffer.pixel t.fb 63 0,
        Framebuffer.pixel t.fb 0 0, t.reg 0xF, t.fbDirty)) = some (false, true, true, false, 0, true) := by decide
theorem test_drw_collides :
    see (((withBytes (alu 0xD011 []) 0x300 [0xF0]).setI 0x300).paint (Framebuffer.blank.setPixel 3 0 true))
      (fun t => (Framebuffer.pixel t.fb 0 0, Framebuffer.pixel t.fb 3 0, Framebuffer.pixel t.fb 4 0, t.reg 0xF)) =
      some (true, false, false, 1) := by decide

/-! ### Timers and keys (V-TIM) -/

theorem test_ldFromDT : see ((alu 0xF507 []).setDT 0x3C) (·.reg 5) = some 0x3C := by decide
theorem test_ldDT : see (alu 0xF515 [(5, 3)]) (fun t => (t.DT, t.delayActive)) = some (3, true) := by decide
theorem test_ldST : see (alu 0xF518 [(5, 2)]) (fun t => (t.ST, t.soundActive)) = some (2, true) := by decide
/-- Nothing listed: the cycle begins again, and the rest of it is listed. -/
theorem test_cycle :
    see { State.reset with DT := 2, agenda := ⟨[], [.tick, .core], 0⟩ } (fun t => (t.DT, t.agenda.listed)) =
      some (1, [.core]) := by decide
theorem test_tick :
    see { State.reset with DT := 2, ST := 1, agenda := turns [.tick] }
      (fun t => (t.DT, t.ST, t.soundActive, t.delayActive)) = some (1, 0, false, true) := by decide
theorem test_skp_down :
    see { alu 0xE19E [(1, 5)] with keysIn := [Vector.ofFn (fun k => decide (k.val = 5))] } (·.pc) = some 0x204 := by
  decide
theorem test_skp_no_key :
    see (alu 0xE19E [(1, 0x10)]) (·.run) = some (.halted (.keyIndexOutOfRange 0x10 0x202)) := by decide
theorem test_sknp_up :
    see { alu 0xE1A1 [(1, 5)] with keysIn := [Vector.replicate 16 false] } (·.pc) = some 0x204 := by decide
theorem test_ldKey :
    see (alu 0xF30A []) (fun t => (t.run, t.pc, t.reg 3)) = some (.waitingForKey 3, 0x202, 0) := by decide
theorem test_key_press :
    see { State.reset with run := .waitingForKey 3, pc := 0x202, agenda := turns [.keyPress 0xA] }
      (fun t => (t.reg 3, t.run, t.pc)) = some (0x0A, .running, 0x202) := by decide
theorem test_quit_while_waiting :
    see { State.reset with run := .waitingForKey 3, agenda := turns [.quit] } (fun t => (t.run, t.reg 3)) =
      some (.halted .quit, 0) := by decide
theorem test_halted_has_no_step :
    (see { State.reset with run := .halted .quit, DT := 5, agenda := turns [.tick] } (·.DT)).isNone = true := by decide

/-! ### Load (V-RST) -/

theorem test_load_odd_image :
    ((State.boot [0x60, 0x05, 0x70]).mem.read 0x202, (State.boot [0x60, 0x05, 0x70]).mem.read 0x203) =
      (0x70#8, 0x00#8) := by decide

/-! ### Witnesses: the hypotheses of each statement hold together somewhere -/

/-- DecodeInvertsEncode. -/
theorem witness_DecodeInvertsEncode : Instr.wf (.sys 0x0E1) = true ∧ Instr.wf (.drw 0xF 0xF 0xF) = true := by decide

/-- EncodeInvertsDecode. -/
theorem witness_EncodeInvertsDecode : decode 0x0001#16 = .ok (.sys 0x001) ∧ decode 0xFF65#16 = .ok (.load 0xF) := by
  decide

/-- StepRunsDecodedInstruction: the core's turn from the cycle, and listed at the last pc a word is fetched at. -/
theorem witness_StepRunsDecodedInstruction :
    (at200 0x1234).run = .running ∧ HasTurn .core (at200 0x1234) ((at200 0x1234).setAgenda (turns [])) ∧ (at200 0x1234).pc.toNat ≤ 0xFFE ∧
      decode (bytesWord ((at200 0x1234).mem.read (at200 0x1234).pc.toNat)
        ((at200 0x1234).mem.read ((at200 0x1234).pc.toNat + 1))) = .ok (.jp 0x234) :=
  ⟨by decide, hasTurn_cycle rfl, by decide, by decide⟩

/-- At pc = 0xFFE with the core's turn listed. -/
def lastWord : State := { withBytes State.reset 0xFFE [0x60, 0x07] with pc := 0xFFE, agenda := turns [.core, .tick] }

theorem witness_StepRunsDecodedInstruction_listed :
    lastWord.run = .running ∧ HasTurn .core lastWord (lastWord.setAgenda (turns [.tick])) ∧ lastWord.pc.toNat ≤ 0xFFE ∧
      decode (bytesWord (lastWord.mem.read lastWord.pc.toNat) (lastWord.mem.read (lastWord.pc.toNat + 1))) =
        .ok (.ldImm 0x0 0x07) :=
  ⟨by decide, hasTurn_listed rfl, by decide, by decide⟩

/-- FetchOrPcOutOfRange: a word at 0xFFE, none at 0xFFF. -/
theorem witness_FetchOrPcOutOfRange :
    (0xFFE#16).toNat ≤ 0xFFE ∧ (alone.setPc 0xFFF).run = .running ∧
      HasTurn .core (alone.setPc 0xFFF) ((alone.setPc 0xFFF).setAgenda (turns [])) ∧ 0xFFE < (alone.setPc 0xFFF).pc.toNat :=
  ⟨by decide, by decide, hasTurn_cycle rfl, by decide⟩

/-- IllegalWordHalts. -/
theorem witness_IllegalWordHalts :
    (at200 0xFFFF).run = .running ∧ HasTurn .core (at200 0xFFFF) ((at200 0xFFFF).setAgenda (turns [])) ∧
      fetch (at200 0xFFFF).mem (at200 0xFFFF).pc = some 0xFFFF#16 ∧ illegalWord 0xFFFF#16 = true :=
  ⟨by decide, hasTurn_cycle rfl, by decide, by decide⟩

/-- A machine that waits for a key to put in V3, with the timer, the core and the redraw taking turns for ever. -/
def waiting : State := { State.reset with run := .waitingForKey 3, DT := 5, agenda := ⟨[], [.tick, .core, .redraw], 0⟩ }

/-- The same with one turn first. -/
def waitingFor (a : Turn) : State := waiting.setAgenda (turns [a])

/-- CoreWithoutStep: waiting with the core's turn listed, and halted. -/
theorem witness_CoreWithoutStep :
    (waitingFor .core).run = .waitingForKey 3 ∧
      HasTurn .core (waitingFor .core) ((waitingFor .core).setAgenda (turns [])) ∧
      (waiting.halt .quit).run = .halted .quit :=
  ⟨rfl, hasTurn_listed rfl, rfl⟩

/-- FetchSeesStores: a store to the first, to the second and to neither byte of the word. -/
theorem witness_FetchSeesStores :
    Memory.wf [(0xFFE, 0x60#8)] = true ∧ 0xFFE < 4096 ∧ 0xFFF < 4096 ∧ 0x300 < 4096 ∧ (0xFFE#16).toNat ≤ 0xFFE ∧
      0xFFE = (0xFFE#16).toNat ∧ 0xFFF = (0xFFE#16).toNat + 1 ∧
      0x300 ≠ (0xFFE#16).toNat ∧ 0x300 ≠ (0xFFE#16).toNat + 1 := by decide

/-- MemoryReadAfterWrite, at the last address. -/
theorem witness_MemoryReadAfterWrite : Memory.wf [(0x300, 0x01#8), (0xFFF, 0x02#8)] = true ∧ 0xFFF < 4096 := by decide

/-- CanonicalMemoryUnique. -/
theorem witness_CanonicalMemoryUnique :
    Memory.wf (State.boot [0x12, 0x00]).mem = true ∧ Memory.wf [(0x200, 0x12#8)] = true ∧
      ∀ a, (State.boot [0x12, 0x00]).mem.read a = Memory.read [(0x200, 0x12#8)] a :=
  ⟨by decide, by decide, fun _ => rfl⟩

/-- BlockAccessAllOrNothing: the last three bytes in range; from 0xFFE the third is the first out of range. -/
theorem witness_BlockAccessAllOrNothing :
    (∀ k, k < 3 → 0xFFD + k ≤ 0xFFF) ∧ Memory.wf [(0xFFF, 0x02#8)] = true ∧ [1#8, 5#8, 6#8].length = 3 ∧
      2 < 3 ∧ 0xFFF < 0xFFE + 2 ∧ ∀ j, j < 2 → 0xFFE + j ≤ 0xFFF :=
  ⟨by omega, by decide, rfl, by omega, by omega, by omega⟩

/-- SysReportsOnly: a target that has a word of its own. -/
theorem witness_SysReportsOnly : (0x0E1#12) ≠ 0x000#12 ∧ (0x0E1#12) ≠ 0x0E0#12 ∧ (0x0E1#12) ≠ 0x0EE#12 := by decide

/-- RetPopsOrUnderflows. -/
theorem witness_RetPopsOrUnderflows :
    (State.reset.setStack [0x0FFF]).stack = 0x0FFF :: [] ∧ State.reset.stack = [] := ⟨rfl, rfl⟩

/-- CallPushesOrOverflows and ReturnUndoesCall: 15 entries and 16. -/
theorem witness_CallPushesOrOverflows :
    (State.reset.setStack (List.replicate 15 0x202)).stack.length < 16 ∧
      (State.reset.setStack (List.replicate 16 0x202)).stack.length = 16 := by decide

theorem witness_ReturnUndoesCall : (State.reset.setStack (List.replicate 15 0x202)).stack.length < 16 := by decide

/-- AddWithCarry, SubtractWithBorrow, ShiftsByOne and FlagIsWrittenLast: the clause on X not F, beside the one on F. -/
theorem witness_flag_destinations : (0xE#4) ≠ 0xF#4 ∧ ¬(0xF#4) ≠ 0xF#4 := by decide

/-- BcdStoresDigits: the last three bytes of memory, and one further. -/
theorem witness_BcdStoresDigits :
    (State.reset.setI 0xFFD).I.toNat + 2 ≤ 0xFFF ∧ (State.reset.setI 0xFFD).mem.wf = true ∧
      0xFFF < (State.reset.setI 0xFFE).I.toNat + 2 := by decide

/-- BlockStoreWritesRegisters and BlockLoadReadsRegisters with all 16 registers: the last 16 bytes, and one further. -/
theorem witness_BlockStoreWritesRegisters :
    (State.reset.setI 0xFF0).I.toNat + (0xF#4).toNat ≤ 0xFFF ∧ (State.reset.setI 0xFF0).mem.wf = true ∧
      (0xF#4).toNat ≤ (0xF#4).toNat ∧ 0xFFF < (State.reset.setI 0xFF1).I.toNat + (0xF#4).toNat := by decide

theorem witness_BlockLoadReadsRegisters :
    (State.reset.setI 0xFF0).I.toNat + (0xF#4).toNat ≤ 0xFFF ∧
      0xFFF < (State.reset.setI 0x1000).I.toNat + (0x0#4).toNat := by decide

/-- StoreThenLoadRestores: the state after the store is itself such a `u`. -/
theorem witness_StoreThenLoadRestores :
    (State.reset.setI 0xFF0).mem.wf = true ∧ (State.reset.setI 0xFF0).I.toNat + (0xF#4).toNat ≤ 0xFFF ∧
      ∃ t u : State, exec (.store 0xF) (State.reset.setI 0xFF0) = .next t ∧ u.mem = t.mem ∧ u.I = (State.reset.setI 0xFF0).I :=
  ⟨by decide, by decide, _, _, rfl, rfl, rfl⟩

/-- DrawTogglesCoveredPixels: no row at all with I beyond memory, the last byte in range, and one further. -/
theorem witness_DrawTogglesCoveredPixels :
    (0x0#4).toNat = 0 ∧ (State.reset.setI 0xFF1).I.toNat + (0xF#4).toNat - 1 ≤ 0xFFF ∧
      1 ≤ (0xF#4).toNat ∧ 0xFFF < (State.reset.setI 0xFF2).I.toNat + (0xF#4).toNat - 1 := by decide

/-- DrawTwiceRestoresScreen. -/
theorem witness_DrawTwiceRestoresScreen :
    (0x0#4) ≠ 0xF#4 ∧ (0x1#4) ≠ 0xF#4 ∧ (State.reset.setI 0xFF1).I.toNat + (0xF#4).toNat - 1 ≤ 0xFFF := by decide

/-- KeySkips: V1 = 15 names the last key, V1 = 16 none. -/
theorem witness_KeySkips :
    ((State.reset.setReg 1 15).reg 1).toNat < 16 ∧ 0xF < ((State.reset.setReg 1 16).reg 1).toNat := by decide

/-- KeyPressCompletesWait: waiting, and running. -/
theorem witness_KeyPressCompletesWait :
    HasTurn (.keyPress 0xA) (waitingFor (.keyPress 0xA)) ((waitingFor (.keyPress 0xA)).setAgenda (turns [])) ∧
      (waitingFor (.keyPress 0xA)).run = .waitingForKey 3 ∧
      HasTurn (.keyPress 0x4) (alone.setAgenda (turns [.keyPress 0x4])) alone ∧
      (alone.setAgenda (turns [.keyPress 0x4])).run = .running :=
  ⟨hasTurn_listed rfl, rfl, hasTurn_listed rfl, rfl⟩

/-- HaltedIsTerminal. -/
theorem witness_HaltedIsTerminal :
    (State.reset.halt (.stackOverflow 0x202)).run = .halted (.stackOverflow 0x202) := rfl

/-- TickCountsBothTimers, waiting: the tick begins the cycle, which is fair to the timer. -/
theorem witness_TickCountsBothTimers :
    NotHalted waiting ∧ HasTurn .tick waiting (waiting.setAgenda ⟨[.core, .redraw], [.tick, .core, .redraw], 0⟩) ∧
      waiting.agenda.FairToTimer :=
  ⟨.inr ⟨3, rfl⟩, hasTurn_cycle rfl, .inl (by decide)⟩

/-- After reset every turn is free: the agent of free turn 0, whichever it is, has the first one. -/
theorem witness_HasTurn_free :
    HasTurn (Config.freeTurn 0) State.reset (State.reset.setAgenda ⟨[], [], 1⟩) := hasTurn_iff.mpr ⟨rfl, rfl⟩

/-- RedrawHandsOffPixels, and the last pixel's index is in range. -/
theorem witness_RedrawHandsOffPixels :
    NotHalted (alone.setAgenda (turns [.redraw])) ∧ HasTurn .redraw (alone.setAgenda (turns [.redraw])) alone ∧
      31 * 64 + 63 < 2048 := ⟨.inl rfl, hasTurn_listed rfl, by decide⟩

/-- QuitHalts. -/
theorem witness_QuitHalts :
    NotHalted (waitingFor .quit) ∧ HasTurn .quit (waitingFor .quit) ((waitingFor .quit).setAgenda (turns [])) :=
  ⟨.inr ⟨3, rfl⟩, hasTurn_listed rfl⟩

/-- EveryInstructionHasNext: the clause on a machine that is not halted. -/
theorem witness_EveryInstructionHasNext : NotHalted State.reset ∧ NotHalted waiting := ⟨.inl rfl, .inr ⟨3, rfl⟩⟩

/-- FaultsArePrecise and OneFaultKindPerInstruction: a return with an empty stack. -/
theorem witness_FaultsArePrecise :
    NotHalted State.reset ∧ ∃ t, exec .ret State.reset = .next t ∧ t.run = .halted (.stackUnderflow 0x200) :=
  ⟨.inl rfl, _, rfl, rfl⟩

/-- FaultsArePrecise, the whole step: PcOutOfRange keeps pc, an underflow does not. -/
theorem witness_FaultsArePrecise_step :
    (∃ t, step (alone.setPc 0xFFF) = .next t ∧ t.run = .halted (.pcOutOfRange 0xFFF)) ∧
      ∃ t, step (at200 0x00EE) = .next t ∧ t.run = .halted (.stackUnderflow 0x202) :=
  ⟨⟨_, rfl, rfl⟩, ⟨_, rfl, rfl⟩⟩

theorem witness_OneFaultKindPerInstruction :
    NotHalted State.reset ∧ ∃ t, exec (.skp 1) (State.reset.setReg 1 16) = .next t ∧
      t.run = .halted (.keyIndexOutOfRange 16 0x200) := ⟨.inl rfl, _, rfl, rfl⟩

/-- RegisterWriters: an add writes neither V0 nor, unless it is its destination, any register but VF. -/
theorem witness_RegisterWriters :
    ¬mayWriteReg (.addReg 1 2) 0 ∧ ∃ t, exec (.addReg 1 2) State.reset = .next t :=
  ⟨by simp [mayWriteReg], _, rfl⟩

/-- ControlStateWriters: an instruction that changes the stack and pc, and one that changes `run`. -/
theorem witness_ControlStateWriters :
    (∃ t, exec (.call 0x300) State.reset = .next t ∧ t.stack ≠ State.reset.stack ∧ t.pc ≠ State.reset.pc) ∧
      ∃ t, exec (.ldKey 3) State.reset = .next t ∧ t.run ≠ State.reset.run :=
  ⟨⟨_, rfl, by decide, by decide⟩, ⟨_, rfl, by decide⟩⟩

/-- Pixel (0, 0) lit, with the redraw flag clear. -/
def litCorner : State := { State.reset with fb := Framebuffer.blank.setPixel 0 0 true }

/-- DataStateWriters: each of memory, I, DT, ST, a pixel and the redraw flag is changed by some instruction. -/
theorem witness_DataStateWriters :
    (∃ t, exec (.ldB 1) (State.reset.setReg 1 9) = .next t ∧ t.mem.read 2 ≠ State.reset.mem.read 2) ∧
      (∃ t, exec (.ldI 0x300) State.reset = .next t ∧ t.I ≠ State.reset.I) ∧
      (∃ t, exec (.ldDT 1) (State.reset.setReg 1 9) = .next t ∧ t.DT ≠ State.reset.DT) ∧
      (∃ t, exec (.ldST 1) (State.reset.setReg 1 9) = .next t ∧ t.ST ≠ State.reset.ST) ∧
      (∃ t, exec .cls litCorner = .next t ∧ t.fb ≠ litCorner.fb ∧ t.fbDirty ≠ litCorner.fbDirty) :=
  ⟨⟨_, rfl, by decide⟩, ⟨_, rfl, by decide⟩, ⟨_, rfl, by decide⟩, ⟨_, rfl, by decide⟩, ⟨_, rfl, fun h => absurd (congrArg (Framebuffer.pixel · 0 0) h) (by decide), by decide⟩⟩

/-- ProgramLoadPlacesImage. -/
theorem witness_ProgramLoadPlacesImage : State.reset.mem.wf = true := by decide

/-- StepKeepsInv: a machine about to call meets the invariant and steps. -/
theorem witness_StepKeepsInv :
    (at200 0x2200).Inv ∧ ∃ t, step (at200 0x2200) = .next t ∧ t.stack = [0x0202] :=
  ⟨⟨by decide, by decide, fun _ h => absurd h List.not_mem_nil, by decide⟩, _, rfl, by decide⟩

/-- HaltRecordIsTrue: a step that halts. -/
theorem witness_HaltRecordIsTrue :
    ∃ t, step (at200 0xFFFF) = .next t ∧ t.run = .halted (.decodeFailure 0xFFFF 0x200) := ⟨_, rfl, rfl⟩

/-- RunsFromBootAreSound: a run with a step in it. -/
theorem witness_RunsFromBootAreSound :
    ∃ t, Reaches (State.bootIn [0x22, 0x00] (turns [.tick, .core]) [] []) t ∧ t.agenda = turns [.core] :=
  ⟨_, .after .start rfl, rfl⟩

/-- WaitWithoutKeyNeverEnds: waiting, with turns of the core, the timer and the redraw only, and fair to the timer. -/
theorem witness_WaitWithoutKeyNeverEnds :
    waiting.run = .waitingForKey 3 ∧ waiting.agenda.LeavesWaiting ∧ waiting.agenda.FairToTimer ∧
      ∃ t, Reaches waiting t ∧ t.DT = 4 :=
  ⟨rfl, by
    intro a ha
    rcases ha with h | h | ⟨h, -⟩
    · exact absurd h List.not_mem_nil
    · simp [waiting] at h
      rcases h with rfl | rfl | rfl <;> simp
    · exact absurd h (by decide), .inl (by decide),
    timerTick (waiting.setAgenda waiting.agenda.rest), .after .start rfl, by decide⟩

end Sys2Proof.Tests
end

section
/-! PROOFS. What every instruction does to the state as a whole: which parts it can write, what it can
make of pc, the stack and memory, that the invariant outlives every agent's step, and that the outputs are never read. -/

namespace Sys2Proof

/-- The parts of the state that an instruction writes when it does not fault (the "Effect" line of its rule). -/
def Instr.writes : Instr → List Machine.Part
  | .cls => [.fb, .dirty]
  | .ret | .call _ => [.stack, .pc]
  | .sys _ => [.reports]
  | .jp _ | .jpV0 _ | .seImm _ _ | .sneImm _ _ | .seReg _ _ | .sneReg _ _ => [.pc]
  | .ldImm _ _ | .addImm _ _ | .ldReg _ _ | .orReg _ _ | .andReg _ _ | .xorReg _ _ => [.regs]
  | .addReg _ _ | .sub _ _ | .shr _ _ | .subn _ _ | .shl _ _ | .ldFromDT _ | .load _ => [.regs]
  | .rnd _ _ => [.rand, .draws, .regs]
  | .drw _ _ _ => [.fb, .dirty, .regs]
  | .skp _ | .sknp _ => [.keys, .draws, .pc]
  | .ldKey _ => [.run]
  | .ldDT _ => [.delay]
  | .ldST _ => [.sound]
  | .ldI _ | .addI _ | .ldF _ => [.index]
  | .ldB _ | .store _ => [.mem]

namespace Machine

/-! ### The frame of every instruction -/

/-- `t` is `s` halted and otherwise as it was, or nothing of it outside `ps` changed. -/
def HaltsOrWrites (ps : List Part) (s t : State) : Prop := (∃ r, t = s.halt r) ∨ OnlyChanges ps s t

/-- An instruction that faults on a condition, and else makes one update. -/
theorem haltsOrWrites_ite {ps : List Part} {c : Prop} [Decidable c] {s t : State} (r : HaltReason)
    (h : OnlyChanges ps s t) : HaltsOrWrites ps s (if c then t else s.halt r) := by
  split
  · exact .inr h
  · exact .inl ⟨r, rfl⟩

theorem keySkip_haltsOrWrites (down : Bool) (x : Nibble) (s : State) :
    ∃ t, keySkip down x s = .next t ∧ HaltsOrWrites [.keys, .draws, .pc] s t := by
  rcases keySkip_cases down x s with ⟨_, h⟩ | ⟨_, h⟩
  · exact ⟨_, h, .inr (onlyChanges_trans (onlyChanges_takeKeys s) (onlyChanges_skipIf _ _))⟩
  · exact ⟨_, h, .inl ⟨_, rfl⟩⟩

/-- Every instruction has a next state, and there it has halted the machine, changing nothing else (R309), or has changed
at most the parts it writes. -/
theorem exec_haltsOrWrites (i : Instr) (s : State) : ∃ t, exec i s = .next t ∧ HaltsOrWrites i.writes s t := by
  have setPc_after_stack (st : List Word) (v : Word) : OnlyChanges [.stack, .pc] s ((s.setStack st).setPc v) :=
    onlyChanges_trans (onlyChanges_setStack s st) (onlyChanges_setPc _ v)
  cases i with
  | cls => exact ⟨_, rfl, .inr (onlyChanges_paint s _)⟩
  | ret =>
    refine ⟨_, execRet_eq s, ?_⟩
    rw [← ite_not]
    exact haltsOrWrites_ite _ (setPc_after_stack _ _)
  | call nnn =>
    refine ⟨_, execCall_eq nnn s, ?_⟩
    rw [← ite_not]
    exact haltsOrWrites_ite _ (setPc_after_stack _ _)
  | sys => exact ⟨_, rfl, .inr (onlyChanges_report s _)⟩
  | jp | jpV0 => exact ⟨_, rfl, .inr (onlyChanges_setPc s _)⟩
  | seImm | sneImm | seReg | sneReg => exact ⟨_, rfl, .inr (onlyChanges_skipIf s _)⟩
  | ldImm | addImm | ldReg | orReg | andReg | xorReg | ldFromDT => exact ⟨_, rfl, .inr (onlyChanges_setReg s _ _)⟩
  | addReg | sub | shr | subn | shl => exact ⟨_, rfl, .inr (onlyChanges_writeWithFlag s _ _ _)⟩
  | rnd => exact ⟨_, rfl, .inr (onlyChanges_trans (onlyChanges_takeRand s) (onlyChanges_setReg _ _ _))⟩
  | drw x y n =>
    exact ⟨_, execDrw_eq x y n s,
      haltsOrWrites_ite _ (onlyChanges_trans (onlyChanges_paint s _) (onlyChanges_setReg _ _ _))⟩
  | skp x => exact keySkip_haltsOrWrites true x s
  | sknp x => exact keySkip_haltsOrWrites false x s
  | ldKey => exact ⟨_, rfl, .inr (onlyChanges_setRun s _)⟩
  | ldDT => exact ⟨_, rfl, .inr (onlyChanges_setDT s _)⟩
  | ldST => exact ⟨_, rfl, .inr (onlyChanges_setST s _)⟩
  | ldI | addI | ldF => exact ⟨_, rfl, .inr (onlyChanges_setI s _)⟩
  | ldB x => exact ⟨_, execLdB_eq x s, haltsOrWrites_ite _ (onlyChanges_setMem s _)⟩
  | store x => exact ⟨_, execStore_eq x s, haltsOrWrites_ite _ (onlyChanges_setMem s _)⟩
  | load x => exact ⟨_, execLoad_eq x s, haltsOrWrites_ite _ (onlyChanges_setRegsFrom0 s _)⟩

/-- The same of the next state an instruction has. -/
theorem exec_frame {i : Instr} {s t : State} (h : exec i s = .next t) : HaltsOrWrites i.writes s t := by
  obtain ⟨u, hu, hw⟩ := exec_haltsOrWrites i s
  cases hu.symm.trans h
  exact hw

/-- A part the instruction does not write, other than the driver state, is kept: a fault changes that one alone. -/
theorem exec_keeps_part {i : Instr} {s t : State} {p : Part} (h : exec i s = .next t) (hp : p ∉ i.writes)
    (hrun : p ≠ .run) : p.same s t := by
  rcases exec_frame h with ⟨r, rfl⟩ | hframe
  · exact onlyChanges_halt s r p (by simpa using hrun)
  · exact hframe p hp

/-! ### Registers -/

/-- The block register load leaves the registers beyond its bytes alone. -/
theorem reg_setRegsFrom0_of_length_le (s : State) {bs : List Byte} (r : Nibble) (h : bs.length ≤ r.toNat) :
    (s.setRegsFrom0 bs).reg r = s.reg r :=
  (reg_setRegsFrom0 s bs r).trans (List.getD_eq_default _ _ h)

/-- No register changes but the destination and, for a flag writer, VF (R21, R23). -/
theorem exec_keeps_reg {i : Instr} {s t : State} {r : Nibble} (h : exec i s = .next t) (hr : ¬mayWriteReg i r) :
    t.reg r = s.reg r := by
  by_cases hw : .regs ∈ i.writes
  case neg => exact exec_keeps_part h hw (by decide) r
  cases i
  case ldImm | addImm | ldReg | orReg | andReg | xorReg | rnd | ldFromDT =>
    cases h
    exact (reg_setReg _ _ _ r).trans (if_neg hr)
  case addReg | sub | shr | subn | shl =>
    cases h
    obtain ⟨hx, hf⟩ := not_or.mp hr
    exact (reg_writeWithFlag s _ _ _ r).trans ((if_neg hf).trans (if_neg hx))
  case drw x y n =>
    cases (execDrw_eq x y n s).symm.trans h
    split
    · exact (reg_setReg _ _ _ r).trans (if_neg hr)
    · rfl
  case load x =>
    cases (execLoad_eq x s).symm.trans h
    have hlen : x.toNat + 1 ≤ r.toNat := Nat.lt_of_not_le hr
    split
    · exact reg_setRegsFrom0_of_length_le s r (by simpa using hlen)
    · rfl
  all_goals simp [Instr.writes] at hw

/-- Settles O50: a register changes only in a write to it, and `mayWriteReg` names all of those. -/
theorem registerWriters : Obligations.RegisterWriters := fun _ _ _ _ h hr => exec_keeps_reg h hr

/-! ### Stack, pc and driver state -/

theorem stack_mem_writes {i : Instr} (h : .stack ∈ i.writes) : i = .ret ∨ ∃ nnn, i = .call nnn := by
  cases i <;> simp [Instr.writes] at h ⊢

theorem pc_mem_writes {i : Instr} (h : .pc ∈ i.writes) :
    i = .ret ∨ (∃ nnn, i = .jp nnn ∨ i = .call nnn ∨ i = .jpV0 nnn) ∨
      (∃ x nn, i = .seImm x nn ∨ i = .sneImm x nn) ∨ (∃ x y, i = .seReg x y ∨ i = .sneReg x y) ∨
      ∃ x, i = .skp x ∨ i = .sknp x := by
  cases i <;> simp [Instr.writes] at h ⊢

theorem run_mem_writes {i : Instr} (h : .run ∈ i.writes) : ∃ x, i = .ldKey x := by
  cases i <;> simp [Instr.writes] at h ⊢

/-- The driver state changes by a fault or by the beginning of a wait (R30). -/
theorem exec_run_changed {i : Instr} {s t : State} (h : exec i s = .next t) (hr : t.run ≠ s.run) :
    (∃ x, i = .ldKey x ∧ t.run = .waitingForKey x) ∨ ∃ r, t.run = .halted r := by
  rcases exec_frame h with ⟨r, rfl⟩ | hframe
  · exact .inr ⟨r, rfl⟩
  · by_cases hw : .run ∈ i.writes
    · obtain ⟨x, rfl⟩ := run_mem_writes hw
      cases h
      exact .inl ⟨x, rfl, rfl⟩
    · exact absurd (hframe .run hw) hr

/-- Settles O51, by the frame of every instruction. -/
theorem controlStateWriters : Obligations.ControlStateWriters := by
  intro i s t h
  refine ⟨fun hs => stack_mem_writes ?_, fun hp => pc_mem_writes ?_, exec_run_changed h⟩
  · by_contra hn
    exact hs (exec_keeps_part h hn (by decide))
  · by_contra hn
    exact hp (exec_keeps_part h hn (by decide))

/-! ### What the invariant needs -/

theorem addrOf_toNat_le (nnn : Addr12) : (addrOf nnn).toNat ≤ 0xFFF := by
  simp only [addrOf, BitVec.toNat_setWidth]
  omega

/-- The bound on pc that R25 derives: 0xFFF + 0xFF. -/
theorem offsetTarget_toNat_le (s : State) (nnn : Addr12) : (s.offsetTarget nnn).toNat ≤ 0x10FE := by
  have h1 := addrOf_toNat_le nnn
  have h2 : (s.regWide 0x0#4).toNat ≤ 0xFF := by
    simp only [State.regWide, BitVec.toNat_setWidth]
    omega
  simp only [State.offsetTarget, BitVec.toNat_add]
  omega

theorem add_two_toNat_le (w : Word) : (w + 2#16).toNat ≤ w.toNat + 2 := by
  rw [BitVec.toNat_add]
  exact Nat.mod_le _ _

theorem skipIf_pc_toNat_le (s : State) (c : Bool) : (s.skipIf c).pc.toNat ≤ s.pc.toNat + 2 := by
  cases c
  · exact Nat.le_add_right _ _
  · exact add_two_toNat_le s.pc

/-- Everything 00EE can do (R136, R303). -/
theorem exec_ret_cases {s t : State} (h : exec .ret s = .next t) :
    (s.stack = [] ∧ t = s.halt (.stackUnderflow s.pc)) ∨
      ∃ top rest, s.stack = top :: rest ∧ t = (s.setStack rest).setPc top := by
  cases (execRet_eq s).symm.trans h
  cases hs : s.stack with
  | nil => exact .inl ⟨rfl, rfl⟩
  | cons top rest => exact .inr ⟨top, rest, rfl, rfl⟩

/-- Everything 2NNN can do (R138, R302). -/
theorem exec_call_cases {nnn : Addr12} {s t : State} (h : exec (.call nnn) s = .next t) :
    (16 ≤ s.stack.length ∧ t = s.halt (.stackOverflow s.pc)) ∨
      (s.stack.length < 16 ∧ t = (s.push s.pc).setPc (addrOf nnn)) := by
  cases (execCall_eq nnn s).symm.trans h
  split
  · next hl => exact .inl ⟨hl, rfl⟩
  · next hl => exact .inr ⟨Nat.lt_of_not_le hl, rfl⟩

theorem keySkip_pc_toNat_le {down : Bool} {x : Nibble} {s t : State} (h : keySkip down x s = .next t) :
    t.pc.toNat ≤ s.pc.toNat + 2 := by
  rcases keySkip_cases down x s with ⟨_, hk⟩ | ⟨_, hk⟩ <;> cases hk.symm.trans h
  · exact skipIf_pc_toNat_le s.takeKeys _
  · exact Nat.le_add_right _ _

theorem skipIf_mem (s : State) (c : Bool) : (s.skipIf c).mem = s.mem := by
  rw [skipIf_eq, setPc_mem]

theorem keySkip_mem {down : Bool} {x : Nibble} {s t : State} (h : keySkip down x s = .next t) : t.mem = s.mem := by
  rcases keySkip_cases down x s with ⟨_, hk⟩ | ⟨_, hk⟩ <;> cases hk.symm.trans h
  · exact skipIf_mem s.takeKeys _
  · rfl

/-- An instruction finds pc after a fetched word, and so are the entries of the stack: it leaves pc at most 0x10FE. -/
theorem exec_pc_toNat_le {i : Instr} {s t : State} (h : exec i s = .next t) (hpc : s.pc.toNat ≤ 0x1000)
    (hst : ∀ e ∈ s.stack, e.toNat ≤ 0x1000) : t.pc.toNat ≤ 0x10FE := by
  by_cases hw : .pc ∈ i.writes
  case neg =>
    have hkept : t.pc = s.pc := exec_keeps_part h hw (by decide)
    rw [hkept]
    exact hpc.trans (by decide)
  have hnext : s.pc.toNat + 2 ≤ 0x10FE := by omega
  cases i
  case ret =>
    rcases exec_ret_cases h with ⟨_, rfl⟩ | ⟨top, rest, hs, rfl⟩
    · exact hpc.trans (by decide)
    · exact (hst top (hs ▸ List.mem_cons_self)).trans (by decide)
  case call nnn =>
    rcases exec_call_cases h with ⟨_, rfl⟩ | ⟨_, rfl⟩
    · exact hpc.trans (by decide)
    · exact (addrOf_toNat_le nnn).trans (by decide)
  case jp nnn =>
    cases h
    exact (addrOf_toNat_le nnn).trans (by decide)
  case jpV0 nnn =>
    cases h
    exact offsetTarget_toNat_le s nnn
  case seImm | sneImm | seReg | sneReg =>
    cases h
    exact (skipIf_pc_toNat_le s _).trans hnext
  case skp | sknp => exact (keySkip_pc_toNat_le h).trans hnext
  all_goals simp [Instr.writes] at hw

/-- An instruction keeps the bounds of the stack (R26): a call pushes pc only where there is room. -/
theorem exec_stack_bounds {i : Instr} {s t : State} (h : exec i s = .next t) (hpc : s.pc.toNat ≤ 0x1000)
    (hlen : s.stack.length ≤ 16) (hst : ∀ e ∈ s.stack, e.toNat ≤ 0x1000) :
    t.stack.length ≤ 16 ∧ ∀ e ∈ t.stack, e.toNat ≤ 0x1000 := by
  by_cases hw : .stack ∈ i.writes
  case neg =>
    have hkept : t.stack = s.stack := exec_keeps_part h hw (by decide)
    rw [hkept]
    exact ⟨hlen, hst⟩
  rcases stack_mem_writes hw with rfl | ⟨nnn, rfl⟩
  · rcases exec_ret_cases h with ⟨_, rfl⟩ | ⟨top, rest, hs, rfl⟩
    · exact ⟨hlen, hst⟩
    · rw [hs] at hlen hst
      exact ⟨Nat.le_of_succ_le hlen, fun e he => hst e (List.mem_cons_of_mem top he)⟩
  · rcases exec_call_cases h with ⟨_, rfl⟩ | ⟨hroom, rfl⟩
    · exact ⟨hlen, hst⟩
    · exact ⟨hroom, List.forall_mem_cons.mpr ⟨hpc, hst⟩⟩

/-- Memory is the very same list after any instruction but FX33 and FX55. -/
theorem exec_mem_eq {i : Instr} {s t : State} (h : exec i s = .next t) (hm : .mem ∉ i.writes) : t.mem = s.mem := by
  cases i
  case ldB | store => simp [Instr.writes] at hm
  case ret => rcases exec_ret_cases h with ⟨_, rfl⟩ | ⟨_, _, _, rfl⟩ <;> rfl
  case call nnn => rcases exec_call_cases h with ⟨_, rfl⟩ | ⟨_, rfl⟩ <;> rfl
  case drw x y n => cases (execDrw_eq x y n s).symm.trans h; split <;> rfl
  case load x => cases (execLoad_eq x s).symm.trans h; split <;> rfl
  case skp | sknp => exact keySkip_mem h
  case seImm | sneImm | seReg | sneReg => cases h; exact skipIf_mem s _
  all_goals cases h; rfl

theorem mem_mem_writes {i : Instr} (h : .mem ∈ i.writes) : ∃ x, i = .ldB x ∨ i = .store x := by
  cases i <;> simp [Instr.writes] at h ⊢

/-- An instruction keeps the canonical form of memory (log 5): the block writes are all or nothing. -/
theorem exec_mem_wf {i : Instr} {s t : State} (h : exec i s = .next t) (hwf : s.mem.wf = true) : t.mem.wf = true := by
  by_cases hm : .mem ∈ i.writes
  case neg => rwa [exec_mem_eq h hm]
  obtain ⟨x, rfl | rfl⟩ := mem_mem_writes hm
  · cases (execLdB_eq x s).symm.trans h
    split
    · next hl => exact wf_writeFrom _ _ _ hwf hl
    · exact hwf
  · cases (execStore_eq x s).symm.trans h
    split
    · next hl => exact wf_writeFrom _ _ _ hwf (by rwa [regsUpTo_length])
    · exact hwf

/-! ### The invariant, agent by agent -/

/-- The invariant speaks of memory, the stack and pc only. -/
theorem inv_congr {s t : State} (hs : s.Inv) (hmem : t.mem = s.mem) (hstack : t.stack = s.stack) (hpc : t.pc = s.pc) :
    t.Inv := by
  unfold State.Inv
  rwa [hmem, hstack, hpc]

/-- The execute phase, which finds pc after a fetched word. -/
theorem exec_inv {i : Instr} {s t : State} (hs : s.Inv) (hpc : s.pc.toNat ≤ 0x1000) (h : exec i s = .next t) : t.Inv := by
  obtain ⟨hwf, hlen, hst, -⟩ := hs
  obtain ⟨hlen', hst'⟩ := exec_stack_bounds h hpc hlen hst
  exact ⟨exec_mem_wf h hwf, hlen', hst', exec_pc_toNat_le h hpc hst⟩

/-- The advance after a fetch leaves pc at most 0x1000 (R131). -/
theorem fetch_advance_toNat_le {m : Memory} {a w : Word} (hf : fetch m a = some w) : (a + 2#16).toNat ≤ 0x1000 := by
  have := (fetch_eq_some.mp hf).1
  have := add_two_toNat_le a
  omega

theorem inv_setPc {s : State} {a : Word} (hs : s.Inv) (ha : a.toNat ≤ 0x1000) : (s.setPc a).Inv := by
  obtain ⟨hwf, hlen, hst, -⟩ := hs
  exact ⟨hwf, hlen, hst, ha.trans (by decide)⟩

theorem instructionStep_inv {s t : State} (hs : s.Inv) (h : instructionStep s = .next t) : t.Inv := by
  rcases instructionStep_cases h with ⟨_, rfl⟩ | ⟨w, e, hf, _, rfl⟩ | ⟨w, i, hf, _, hx⟩
  · exact inv_congr hs rfl rfl rfl
  · exact inv_congr (inv_setPc hs (fetch_advance_toNat_le hf)) rfl rfl rfl
  · exact exec_inv (inv_setPc hs (fetch_advance_toNat_le hf)) (fetch_advance_toNat_le hf) hx

theorem coreTurn_inv {s t : State} (hs : s.Inv) (h : coreTurn s = .next t) : t.Inv := by
  rcases coreTurn_cases h with ⟨_, hi⟩ | ⟨_, _, rfl⟩
  · exact instructionStep_inv hs hi
  · exact hs

theorem timerTick_inv {s : State} (hs : s.Inv) : (timerTick s).Inv := by
  unfold timerTick
  split
  · exact inv_congr hs rfl rfl rfl
  · exact hs

theorem redrawStep_inv {s : State} (hs : s.Inv) : (redrawStep s).Inv := by
  unfold redrawStep
  split
  · exact inv_congr hs rfl rfl rfl
  · exact hs

theorem quitStep_inv {s : State} (hs : s.Inv) : (quitStep s).Inv := by
  unfold quitStep
  split
  · exact inv_congr hs rfl rfl rfl
  · exact hs

theorem keyPressStep_inv {s : State} (k : Nibble) (hs : s.Inv) : (keyPressStep k s).Inv := by
  unfold keyPressStep
  split
  · exact inv_congr hs rfl rfl rfl
  · exact hs
  · exact hs

/-- Settles O57: the agent that has the turn keeps the invariant, whichever it is. -/
theorem stepKeepsInv : Obligations.StepKeepsInv := by
  intro s t hs h
  obtain ⟨-, g, hturn⟩ := step_cases h
  have hg : (s.setAgenda g).Inv := inv_congr hs rfl rfl rfl
  rcases hturn with hcore | rfl | rfl | ⟨k, rfl⟩ | rfl
  · exact coreTurn_inv hg hcore
  · exact timerTick_inv hg
  · exact redrawStep_inv hg
  · exact keyPressStep_inv k hg
  · exact quitStep_inv hg

/-! ### The outputs -/

/-- What the state holds for the output ports alone: ST, the redraw flag, the reports and the last snapshot. -/
structure Outputs where
  sound : Byte
  dirty : Bool
  reports : List LegacyReport
  snapshot : Option Snapshot

/-- The state with other outputs. -/
def State.withOutputs (s : State) (o : Outputs) : State :=
  { s with ST := o.sound, fbDirty := o.dirty, reports := o.reports, fbSnapshot := o.snapshot }

theorem onlyChanges_withOutputs (s : State) (o : Outputs) :
    OnlyChanges [.sound, .dirty, .reports, .snapshot] s (s.withOutputs o) := by
  intro p hp; cases p <;> simp_all [Part.same, State.withOutputs, State.reg]

theorem skipIf_withOutputs (s : State) (c : Bool) (o : Outputs) :
    (s.withOutputs o).skipIf c = (s.skipIf c).withOutputs o := by
  cases c <;> rfl

/-- The next state of a conditional update, when both of its branches leave the outputs as they are. -/
theorem next_ite_withOutputs {c : Prop} [Decidable c] {t u t' u' : State} {o : Outputs} (ht : t' = t.withOutputs o)
    (hu : u' = u.withOutputs o) :
    (.next (if c then t' else u') : Host.Outcome State Fault Refusal) = .next ((if c then t else u).withOutputs o) := by
  rw [ht, hu, apply_ite (State.withOutputs · o)]

theorem keySkip_withOutputs (down : Bool) (x : Nibble) (s : State) (o : Outputs) :
    ∃ t, keySkip down x s = .next t ∧ keySkip down x (s.withOutputs o) = .next (t.withOutputs o) := by
  by_cases h : (s.reg x).toNat < 16
  · exact ⟨_, dif_pos h, (dif_pos h).trans (congrArg _ (skipIf_withOutputs s.takeKeys _ o))⟩
  · exact ⟨_, dif_neg h, dif_neg h⟩

/-- An instruction goes the same way whatever the outputs are; only they can then differ (R27, R31, R307). -/
theorem exec_withOutputs (i : Instr) (s : State) (o : Outputs) :
    ∃ t o', exec i s = .next t ∧ exec i (s.withOutputs o) = .next (t.withOutputs o') := by
  cases i
  case cls => exact ⟨_, { o with dirty := true }, rfl, rfl⟩
  case sys nnn => exact ⟨_, { o with reports := o.reports ++ [⟨addrOf nnn, s.pc - 2#16, nnn⟩] }, rfl, rfl⟩
  case ldST x => exact ⟨_, { o with sound := s.reg x }, rfl, rfl⟩
  case seImm | sneImm | seReg | sneReg => exact ⟨_, o, rfl, congrArg _ (skipIf_withOutputs s _ o)⟩
  case skp x => obtain ⟨t, h⟩ := keySkip_withOutputs true x s o; exact ⟨t, o, h⟩
  case sknp x => obtain ⟨t, h⟩ := keySkip_withOutputs false x s o; exact ⟨t, o, h⟩
  case drw x y n =>
    by_cases h : n.toNat = 0 ∨ s.I.toNat + n.toNat ≤ 4096
    · exact ⟨_, { o with dirty := true }, (execDrw_eq x y n s).trans (congrArg _ (if_pos h)),
        (execDrw_eq x y n _).trans (congrArg _ (if_pos h))⟩
    · exact ⟨_, o, (execDrw_eq x y n s).trans (congrArg _ (if_neg h)),
        (execDrw_eq x y n _).trans (congrArg _ (if_neg h))⟩
  case ret => exact ⟨_, o, execRet_eq s, (execRet_eq _).trans (next_ite_withOutputs rfl rfl)⟩
  case call nnn => exact ⟨_, o, execCall_eq nnn s, (execCall_eq nnn _).trans (next_ite_withOutputs rfl rfl)⟩
  case ldB x => exact ⟨_, o, execLdB_eq x s, (execLdB_eq x _).trans (next_ite_withOutputs rfl rfl)⟩
  case store x => exact ⟨_, o, execStore_eq x s, (execStore_eq x _).trans (next_ite_withOutputs rfl rfl)⟩
  case load x => exact ⟨_, o, execLoad_eq x s, (execLoad_eq x _).trans (next_ite_withOutputs rfl rfl)⟩
  all_goals exact ⟨_, o, rfl, rfl⟩

/-- Settles O53: the two next states differ by `withOutputs`. -/
theorem outputsNeverRead : Obligations.OutputsNeverRead := by
  intro i s st dirty rs sn
  obtain ⟨t, o', ht, hu⟩ := exec_withOutputs i s ⟨st, dirty, rs, sn⟩
  exact ⟨t, t.withOutputs o', ht, hu, onlyChanges_withOutputs t o'⟩

end Machine
end Sys2Proof
end

section
/-! PROOFS. Memory (spec/20_memory.md): what a fetch gives and which stores it sees, reads after writes, that canonical
memories with the same bytes are equal, the whole of a block access, and who writes the data state. -/

namespace Sys2Proof.Machine

/-! ### The fetched word -/

/-- Inside memory a fetch gives the two bytes as one word, the high byte at the lower address (R63, R64). -/
theorem fetch_eq_bytesWord (m : Memory) {p : Word} (hp : p.toNat ≤ 0xFFE) :
    fetch m p = some (bytesWord (m.read p.toNat) (m.read (p.toNat + 1))) := fetch_eq_some.mpr ⟨hp, rfl⟩

theorem bytesWord_toNat (hi lo : Byte) : (bytesWord hi lo).toNat = hi.toNat * 256 + lo.toNat := append_toNat hi lo

theorem bytesWord_high (hi lo : Byte) : (bytesWord hi lo).extractLsb' 8 8 = hi :=
  (extract_high hi lo 8 8 (by decide)).trans (extract_all hi)

theorem bytesWord_low (hi lo : Byte) : (bytesWord hi lo).extractLsb' 0 8 = lo :=
  (extract_low hi lo 0 8 (by decide)).trans (extract_all lo)

/-- Beyond 0xFFE an instruction step halts the machine and pc keeps its value (R304). -/
theorem instructionStep_of_pc_beyond {s : State} (hpc : 0xFFE < s.pc.toNat) :
    instructionStep s = takeFault s (.pcOutOfRange s.pc) := by
  unfold instructionStep
  rw [fetch_eq_none.mpr hpc]

theorem coreTurn_of_running {s : State} (h : s.run = .running) : coreTurn s = instructionStep s := by
  unfold coreTurn
  rw [h]

/-- A running core that has the turn makes an instruction step, on the state with the turn taken. -/
theorem step_of_running {s u : State} (hrun : s.run = .running) (h : HasTurn .core s u) :
    step s = instructionStep u := by
  rw [step_of_hasTurn (.inl hrun) h]
  obtain ⟨g, -, rfl⟩ := h
  exact coreTurn_of_running hrun

/-- Settles O9: the word of a fetch as a number, and the fault of a running core whose pc is beyond 0xFFE. -/
theorem fetchOrPcOutOfRange : Obligations.FetchOrPcOutOfRange := by
  refine ⟨fun m a ha => ⟨_, fetch_eq_bytesWord m ha, bytesWord_toNat _ _⟩, fun s u hrun hturn hpc => ?_⟩
  rw [step_of_running hrun hturn]
  obtain ⟨g, -, rfl⟩ := hturn
  rw [instructionStep_of_pc_beyond (s := s.setAgenda g) hpc]
  exact haltsWith_takeFault _ _

/-! ### Reads after writes -/

/-- The whole of a read after a write. -/
theorem read_write {m : Memory} (hm : m.wf = true) (a b : Nat) (v : Byte) :
    (m.write a v).read b = if b = a then v else m.read b := by
  split
  · next h => rw [h, read_write_self m a v hm]
  · next h => exact read_write_of_ne m a b v h

/-- Settles O13: what a read gives after a write, and the form that the write keeps. -/
theorem memoryReadAfterWrite : Obligations.MemoryReadAfterWrite :=
  fun m a b v hm ha => ⟨read_write hm a b v, wf_write m a v ha hm⟩

/-- Settles O12: each byte of the fetched word is a read after the write. -/
theorem fetchSeesStores : Obligations.FetchSeesStores := by
  intro m a v p hm _ hp
  refine ⟨_, _, fetch_eq_bytesWord m hp, fetch_eq_bytesWord _ hp, ?_, ?_, ?_⟩
  · rintro rfl
    rw [bytesWord_low, read_write_self m _ v hm, read_write_of_ne m _ _ v (Nat.succ_ne_self _)]
  · rintro rfl
    rw [bytesWord_high, read_write_self m _ v hm, read_write_of_ne m _ _ v (Nat.succ_ne_self _).symm]
  · intro hne hne'
    rw [read_write_of_ne m a _ v hne.symm, read_write_of_ne m a _ v hne'.symm]

/-! ### The canonical form -/

theorem read_cons_self (a : Nat) (v : Byte) (m : Memory) : Memory.read ((a, v) :: m) a = v := if_pos rfl

theorem read_cons_of_ne {a b : Nat} (h : b ≠ a) (v : Byte) (m : Memory) : Memory.read ((a, v) :: m) b = m.read b :=
  if_neg h

/-- A canonical memory that lists an address below all those of another one does not read like it: the byte listed
differs from what the address reads as unlisted. -/
theorem read_ne_of_above {a : Nat} {v : Byte} {m n : Memory} (hm : Memory.wf ((a, v) :: m) = true)
    (hn : Memory.above a n = true) : Memory.read ((a, v) :: m) a ≠ n.read a := by
  obtain ⟨-, hv, -, -⟩ := (wf_cons a v m).mp hm
  rwa [read_cons_self, read_of_above n a hn]

/-- An address below the first one listed is below all those listed. -/
theorem above_of_lt_head {a b : Nat} {w : Byte} {n : Memory} (hn : Memory.wf ((b, w) :: n) = true) (hab : a < b) :
    Memory.above a ((b, w) :: n) = true := by
  obtain ⟨-, -, habove, -⟩ := (wf_cons b w n).mp hn
  simp [Memory.above, hab, above_mono n hab.le habove]

/-- Behind a common first address, memories that read alike go on alike: neither lists that address again. -/
theorem read_tail_eq {a : Nat} {v w : Byte} {m n : Memory} (hm : Memory.above a m = true) (hn : Memory.above a n = true)
    (h : ∀ c, Memory.read ((a, v) :: m) c = Memory.read ((a, w) :: n) c) (c : Nat) : m.read c = n.read c := by
  by_cases hc : c = a
  · rw [hc, read_of_above m a hm, read_of_above n a hn]
  · simpa only [read_cons_of_ne hc] using h c

/-- Settles O14, by induction on the first memory: the first addresses of both agree, or else one memory reads unlisted
where the other lists a byte. -/
theorem canonicalMemoryUnique : Obligations.CanonicalMemoryUnique := by
  intro m
  induction m with
  | nil =>
    rintro (_ | ⟨⟨b, w⟩, n⟩) - hn h
    · rfl
    · exact absurd (h b).symm (read_ne_of_above hn rfl)
  | cons c m ih =>
    obtain ⟨a, v⟩ := c
    rintro (_ | ⟨⟨b, w⟩, n⟩) hm hn h
    · exact absurd (h a) (read_ne_of_above hm rfl)
    · rcases lt_trichotomy a b with hab | rfl | hba
      · exact absurd (h a) (read_ne_of_above hm (above_of_lt_head hn hab))
      · obtain ⟨-, -, hma, hmwf⟩ := (wf_cons a v m).mp hm
        obtain ⟨-, -, hna, hnwf⟩ := (wf_cons a w n).mp hn
        have hvw : v = w := by simpa only [read_cons_self] using h a
        rw [hvw, ih n hmwf hnwf (read_tail_eq hma hna h)]
      · exact absurd (h b).symm (read_ne_of_above hn (above_of_lt_head hm hba))

/-! ### Block accesses -/

/-- A block whose bytes all exist is empty or ends in memory, which is how the checked accesses' equations put it. -/
theorem block_in_range {a n : Nat} (h : ∀ k, k < n → a + k ≤ 0xFFF) : n = 0 ∨ a + n ≤ 4096 := by
  rcases n with _ | n
  · exact .inl rfl
  · have := h n n.lt_succ_self
    omega

/-- A block with one byte out of range. -/
theorem block_out_of_range {a n k : Nat} (hk : k < n) (hout : 0xFFF < a + k) : ¬(n = 0 ∨ a + n ≤ 4096) := by omega

/-- The lowest address out of range is 0x1000, or where the block begins if that is higher (log 16). -/
theorem lowest_out_of_range {a k : Nat} (hout : 0xFFF < a + k) (hlow : ∀ j, j < k → a + j ≤ 0xFFF) :
    max 0x1000 a = a + k := by
  rcases block_in_range hlow with rfl | h <;> omega

/-- The checked block read, the block in range (R61, R66). -/
theorem memReadBytes_ok {m : Memory} {a n : Nat} (h : ∀ k, k < n → a + k ≤ 0xFFF) :
    memReadBytes m a n = .ok ((List.range n).map fun k => m.read (a + k)) :=
  (memReadBytes_eq n m a).trans (if_pos (block_in_range h))

theorem memReadBytes_error {m : Memory} {a n k : Nat} (hk : k < n) (hout : 0xFFF < a + k)
    (hlow : ∀ j, j < k → a + j ≤ 0xFFF) : memReadBytes m a n = .error (a + k) := by
  rw [memReadBytes_eq, if_neg (block_out_of_range hk hout), lowest_out_of_range hout hlow]

/-- The checked block write, the block in range (R62, R66). -/
theorem memWriteBytes_ok {m : Memory} {a : Nat} {vs : List Byte} (h : ∀ k, k < vs.length → a + k ≤ 0xFFF) :
    memWriteBytes m a vs = .ok (m.writeFrom a vs) := by
  rw [memWriteBytes_eq, if_pos (by simpa using block_in_range h)]

theorem memWriteBytes_error {m : Memory} {a k : Nat} {vs : List Byte} (hk : k < vs.length) (hout : 0xFFF < a + k)
    (hlow : ∀ j, j < k → a + j ≤ 0xFFF) : memWriteBytes m a vs = .error (a + k) := by
  rw [memWriteBytes_eq, if_neg (by simpa using block_out_of_range hk hout), lowest_out_of_range hout hlow]

/-- Settles O15: the four outcomes of the checked accesses. -/
theorem blockAccessAllOrNothing : Obligations.BlockAccessAllOrNothing := by
  refine ⟨fun m a n hin => ⟨_, memReadBytes_ok hin, by simp, fun k hk => by simp [hk]⟩,
    fun m a n k => memReadBytes_error, fun m a vs hm hin => ?_, fun m a k vs => memWriteBytes_error⟩
  have hok := memWriteBytes_ok (m := m) hin
  refine ⟨_, hok, wf_memWriteBytes hm hok, fun k hk => ?_, read_writeFrom_outside vs m a⟩
  have hend : a + vs.length ≤ 4096 := (block_in_range hin).resolve_left (Nat.ne_zero_of_lt hk)
  rw [read_writeFrom vs m a (a + k) hm hend, if_pos (by omega), Nat.add_sub_cancel_left]

/-! ### Who writes the data state -/

/-- What changed, other than the driver state, is a part that the instruction writes. -/
theorem mem_writes_of_changed {i : Instr} {s t : State} {p : Part} (h : exec i s = .next t) (hp : ¬p.same s t)
    (hrun : p ≠ .run) : p ∈ i.writes := by
  by_contra hn
  exact hp (exec_keeps_part h hn hrun)

theorem index_mem_writes {i : Instr} (h : .index ∈ i.writes) :
    (∃ nnn, i = .ldI nnn) ∨ ∃ x, i = .addI x ∨ i = .ldF x := by
  cases i <;> simp [Instr.writes] at h ⊢

theorem delay_mem_writes {i : Instr} (h : .delay ∈ i.writes) : ∃ x, i = .ldDT x := by
  cases i <;> simp [Instr.writes] at h ⊢

theorem sound_mem_writes {i : Instr} (h : .sound ∈ i.writes) : ∃ x, i = .ldST x := by
  cases i <;> simp [Instr.writes] at h ⊢

/-- The instructions that paint write both the framebuffer and the redraw flag (R28, R31). -/
theorem fb_or_dirty_mem_writes {i : Instr} (h : .fb ∈ i.writes ∨ .dirty ∈ i.writes) :
    i = .cls ∨ ∃ x y n, i = .drw x y n := by
  cases i <;> simp [Instr.writes] at h ⊢

theorem snapshot_not_mem_writes (i : Instr) : .snapshot ∉ i.writes := by
  cases i <;> simp [Instr.writes]

theorem agenda_not_mem_writes (i : Instr) : .agenda ∉ i.writes := by
  cases i <;> simp [Instr.writes]

/-- The redraw flag changes only where CLS or DRW sets it: a draw that faults leaves it (R31, D21). -/
theorem exec_fbDirty_changed {i : Instr} {s t : State} (h : exec i s = .next t) (hd : t.fbDirty ≠ s.fbDirty) :
    t.fbDirty = true ∧ (i = .cls ∨ ∃ x y n, i = .drw x y n) := by
  have hi := fb_or_dirty_mem_writes (.inr (mem_writes_of_changed h hd (by decide)))
  refine ⟨?_, hi⟩
  rcases hi with rfl | ⟨x, y, n, rfl⟩
  · cases h
    rfl
  · cases (execDrw_eq x y n s).symm.trans h
    revert hd
    split
    · exact fun _ => rfl
    · exact fun hd => absurd rfl hd

/-- Settles O52, by the frame of every instruction; the framebuffer is equal where all its pixels are. -/
theorem dataStateWriters : Obligations.DataStateWriters := by
  intro i s t h
  refine ⟨fun a ha => mem_mem_writes (mem_writes_of_changed h (fun hs => ha (hs a)) (by decide)),
    fun hI => index_mem_writes (mem_writes_of_changed h hI (by decide)),
    fun hD => delay_mem_writes (mem_writes_of_changed h hD (by decide)),
    fun hS => sound_mem_writes (mem_writes_of_changed h hS (by decide)),
    fun hf => fb_or_dirty_mem_writes (.inl (mem_writes_of_changed h (fun hs => hf (Framebuffer_ext hs)) (by decide))),
    exec_fbDirty_changed h,
    exec_keeps_part h (snapshot_not_mem_writes i) (by decide),
    exec_keeps_part h (agenda_not_mem_writes i) (by decide)⟩

end Sys2Proof.Machine
end

section
/-! PROOFS. Encoding (spec/30_encoding.md): the fields of a word, that decoder and encoder undo each other, and that the
table of R94 decodes as the pseudocode of R95 and matches each word in at most one row. -/

namespace Sys2Proof

/-! ### Fields and bytes (R92, R63) -/

/-- NNN from its three nibbles, as R92 writes it. -/
theorem append_nibbles_eq_or (a b c : Nibble) : (a ++ (b ++ c : Byte) : Addr12) =
    (a.setWidth 12 <<< 8) ||| (b.setWidth 12 <<< 4) ||| c.setWidth 12 := by
  refine BitVec.eq_of_getLsbD_eq fun i hi => ?_
  simp only [BitVec.getLsbD_append, BitVec.getLsbD_or, BitVec.getLsbD_shiftLeft, BitVec.getLsbD_setWidth, hi]
  grind

/-- Settles O6, by the parts of the word: NN is the byte N1 N0, and NNN is X before that byte. -/
theorem fieldsOfNibbles : Obligations.FieldsOfNibbles := by
  intro n3 n2 n1 n0 w
  have hnn : fieldNN w = n1 ++ n0 := by simpa [w] using (fieldNN_eq w).symm
  have hnnn : fieldNNN w = n2 ++ (n1 ++ n0 : Byte) := by simpa [w, hnn] using (fieldNNN_eq w).symm
  refine ⟨fieldX_xyn .., fieldY_xyn .., fieldN_xyn .., hnn, hnn ▸ append_toNat n1 n0,
    hnnn ▸ append_nibbles_eq_or n2 n1 n0, ?_⟩
  rw [hnnn, Machine.addrOf, BitVec.toNat_setWidth_of_le (by decide), append_toNat, append_toNat]
  omega

/-- Settles O7, each word by evaluating the decoder on it. -/
theorem decodeSampleWords : Obligations.DecodeSampleWords := by
  unfold Obligations.DecodeSampleWords
  decide

/-- Decoding the bytes of a word in memory order is decoding the word, whatever stands behind them (R63). -/
theorem decodeBytes_wordBytes_append (w : Word) (rest : List Byte) :
    decodeBytes (wordBytes w ++ rest) = (decode w).map (·, rest) := by
  have hw : bytesWord (w.extractLsb' 8 8) (w.extractLsb' 0 8) = w := append_extracts (m := 8) (k := 8) w
  simp only [wordBytes, List.cons_append, List.nil_append, decodeBytes, hw]
  cases decode w <;> rfl

/-! The word of a known family from its fields, by format -/

theorem append_fieldNNN {w : Word} {op : Nibble} (hop : fieldOp w = op) : op ++ fieldNNN w = w :=
  hop ▸ word_eq_nnn w

theorem append_fieldX_fieldNN {w : Word} {op : Nibble} (hop : fieldOp w = op) :
    op ++ fieldX w ++ fieldNN w = w := hop ▸ word_eq_xnn w

theorem append_fieldX_fieldY_fieldN {w : Word} {op : Nibble} (hop : fieldOp w = op) :
    op ++ fieldX w ++ fieldY w ++ fieldN w = w := hop ▸ word_eq_xyn w

/-- All values of a nibble: what is left where a `match` has named the other ones. -/
theorem nibble_mem (n : Nibble) : n ∈ [0x0#4, 0x1#4, 0x2#4, 0x3#4, 0x4#4, 0x5#4, 0x6#4, 0x7#4,
    0x8#4, 0x9#4, 0xA#4, 0xB#4, 0xC#4, 0xD#4, 0xE#4, 0xF#4] := by
  revert n
  decide

/-! ### Family 0: the three words the legacy call leaves out (R94 row 3) -/

theorem eq_zero_append_iff {w : Word} (hop : fieldOp w = 0x0#4) (c : Addr12) : w = 0x0#4 ++ c ↔ fieldNNN w = c := by
  refine ⟨fun h => by rw [h, fieldNNN_nnn], fun h => ?_⟩
  rw [← h, append_fieldNNN hop]

theorem sys_wf_iff {w : Word} (hop : fieldOp w = 0x0#4) :
    (Instr.sys (fieldNNN w)).wf = true ↔ w ≠ 0x0000#16 ∧ w ≠ 0x00E0#16 ∧ w ≠ 0x00EE#16 := by
  have hzero : w = 0x0000#16 ↔ fieldNNN w = 0x000#12 := eq_zero_append_iff hop 0x000#12
  have hcls : w = 0x00E0#16 ↔ fieldNNN w = 0x0E0#12 := eq_zero_append_iff hop 0x0E0#12
  have hret : w = 0x00EE#16 ↔ fieldNNN w = 0x0EE#12 := eq_zero_append_iff hop 0x0EE#12
  simp only [Instr.wf, Bool.and_eq_true, bne_iff_ne, and_assoc, ne_eq, hzero, hcls, hret]

theorem decode_eq_sys {w : Word} (hop : fieldOp w = 0x0#4) (hwf : (Instr.sys (fieldNNN w)).wf = true) :
    decode w = .ok (.sys (fieldNNN w)) := by
  obtain ⟨hzero, hcls, hret⟩ := (sys_wf_iff hop).mp hwf
  have hnnn : fieldNNN w ≠ 0x000#12 := fun h => hzero ((eq_zero_append_iff hop _).mpr h)
  simp [decode, hop, decodeZero, hcls, hret, hnnn]

/-! ### Decoder and encoder -/

theorem decode_encode {i : Instr} (h : i.wf = true) : decode (encode i) = .ok i := by
  cases i
  case cls | ret => rfl
  case sys nnn =>
    have hsys := decode_eq_sys (w := 0x0#4 ++ nnn) (fieldOp_nnn _ _)
    rw [fieldNNN_nnn] at hsys
    exact hsys h
  all_goals simp [encode, decode, decodeAlu, decodeKey, decodeMisc]

/-- Settles O1, instruction by instruction; the bytes give the word back. -/
theorem decodeInvertsEncode : Obligations.DecodeInvertsEncode := by
  intro i hwf
  refine ⟨decode_encode hwf, fun rest => ?_⟩
  rw [encodeBytes, decodeBytes_wordBytes_append, decode_encode hwf]
  rfl

theorem encode_of_decodeZero {w : Word} {i : Instr} (hop : fieldOp w = 0x0#4) (h : decodeZero w = .ok i) :
    i.wf = true ∧ encode i = w := by
  unfold decodeZero at h
  split_ifs at h with hcls hret hnnn <;> cases h
  · exact ⟨rfl, hcls.symm⟩
  · exact ⟨rfl, hret.symm⟩
  · exact ⟨(sys_wf_iff hop).mpr ⟨fun hw => hnnn (hw ▸ rfl), hcls, hret⟩, append_fieldNNN hop⟩

theorem encode_of_decodeAlu {x y n : Nibble} {i : Instr} (h : decodeAlu x y n = .ok i) :
    i.wf = true ∧ encode i = 0x8#4 ++ x ++ y ++ n := by
  unfold decodeAlu at h
  split at h <;> cases h <;> exact ⟨rfl, rfl⟩

theorem encode_of_decodeKey {x : Nibble} {nn : Byte} {i : Instr} (h : decodeKey x nn = .ok i) :
    i.wf = true ∧ encode i = 0xE#4 ++ x ++ nn := by
  unfold decodeKey at h
  split at h <;> cases h <;> exact ⟨rfl, rfl⟩

theorem encode_of_decodeMisc {x : Nibble} {nn : Byte} {i : Instr} (h : decodeMisc x nn = .ok i) :
    i.wf = true ∧ encode i = 0xF#4 ++ x ++ nn := by
  unfold decodeMisc at h
  split at h <;> cases h <;> exact ⟨rfl, rfl⟩

/-- Settles O2, family by family: an instruction carries every field of its word that the pattern leaves free. -/
theorem encodeInvertsDecode : Obligations.EncodeInvertsDecode := by
  intro w i h
  unfold decode at h
  split at h
  case h_1 hop => exact encode_of_decodeZero hop h
  case h_2 hop | h_3 hop | h_11 hop | h_12 hop =>
    cases h
    exact ⟨rfl, append_fieldNNN hop⟩
  case h_4 hop | h_5 hop | h_7 hop | h_8 hop | h_13 hop =>
    cases h
    exact ⟨rfl, append_fieldX_fieldNN hop⟩
  case h_6 hop | h_10 hop =>
    split_ifs at h with hn
    cases h
    exact ⟨rfl, by rw [encode, ← hn, append_fieldX_fieldY_fieldN hop]⟩
  case h_14 hop =>
    cases h
    exact ⟨rfl, append_fieldX_fieldY_fieldN hop⟩
  case h_9 hop => exact append_fieldX_fieldY_fieldN hop ▸ encode_of_decodeAlu h
  case h_15 hop => exact append_fieldX_fieldNN hop ▸ encode_of_decodeKey h
  case h_16 =>
    have hop : fieldOp w = 0xF#4 := by
      have := nibble_mem (fieldOp w)
      simp_all
    exact append_fieldX_fieldNN hop ▸ encode_of_decodeMisc h

/-! ### The table: what a word that a row matches looks like -/

theorem OpcodeRow.hits_iff (r : OpcodeRow) (w : Word) :
    r.hits w = true ↔ w &&& r.mask = r.pattern ∧ w ∉ r.excluded := by
  simp [OpcodeRow.hits]

/-- Where a row looks at every bit of a field, the field is that of the row's pattern. -/
theorem extract_of_hits {r : OpcodeRow} {w : Word} {s l : Nat} (h : r.hits w = true)
    (hmask : r.mask.extractLsb' s l = BitVec.allOnes l) : w.extractLsb' s l = r.pattern.extractLsb' s l := by
  rw [← ((r.hits_iff w).mp h).left, BitVec.extractLsb'_and, hmask, BitVec.and_allOnes]

theorem fieldOp_of_hits {r : OpcodeRow} {w : Word} (h : r.hits w = true) (hmask : fieldOp r.mask = 0xF#4) :
    fieldOp w = fieldOp r.pattern := extract_of_hits h hmask

theorem fieldN_of_hits {r : OpcodeRow} {w : Word} (h : r.hits w = true) (hmask : fieldN r.mask = 0xF#4) :
    fieldN w = fieldN r.pattern := extract_of_hits h hmask

theorem fieldNN_of_hits {r : OpcodeRow} {w : Word} (h : r.hits w = true) (hmask : fieldNN r.mask = 0xFF#8) :
    fieldNN w = fieldNN r.pattern := extract_of_hits h hmask

theorem eq_pattern_of_hits {r : OpcodeRow} {w : Word} (h : r.hits w = true) (hmask : r.mask = 0xFFFF#16) :
    w = r.pattern := by
  rw [← ((r.hits_iff w).mp h).left, hmask]
  exact BitVec.and_allOnes.symm

/-- A row fixes exactly the fields by which the decoder gets to the row's instruction. -/
theorem decode_of_hits {r : OpcodeRow} {w : Word} (hr : r ∈ opcodeTable) (h : r.hits w = true) :
    decode w = .ok (r.build w) := by
  revert r
  simp only [opcodeTable, opcodeRowsA, opcodeRowsB, opcodeRowsC, List.forall_mem_append, List.forall_mem_cons,
    List.not_mem_nil, false_implies, implies_true, and_true, and_assoc]
  refine ⟨?cls, ?ret, ?sys, ?jp, ?call, ?seImm, ?sneImm, ?seReg, ?ldImm, ?addImm, ?ldReg, ?orReg, ?andReg, ?xorReg,
    ?addReg, ?sub, ?shr, ?subn, ?shl, ?sneReg, ?ldI, ?jpV0, ?rnd, ?drw, ?skp, ?sknp, ?ldFromDT, ?ldKey, ?ldDT, ?ldST,
    ?addI, ?ldF, ?ldB, ?store, ?load⟩ <;> intro h
  case cls | ret =>
    rw [eq_pattern_of_hits h rfl]
    rfl
  case sys =>
    have hop : fieldOp w = 0x0#4 := fieldOp_of_hits h rfl
    obtain ⟨-, hexcluded⟩ := (OpcodeRow.hits_iff _ w).mp h
    exact decode_eq_sys hop ((sys_wf_iff hop).mpr (by simpa using hexcluded))
  case jp | call | seImm | sneImm | ldImm | addImm | ldI | jpV0 | rnd | drw =>
    unfold decode
    rw [fieldOp_of_hits h rfl]
    rfl
  case seReg | ldReg | orReg | andReg | xorReg | addReg | sub | shr | subn | shl | sneReg =>
    unfold decode
    rw [fieldOp_of_hits h rfl, fieldN_of_hits h rfl]
    rfl
  case skp | sknp | ldFromDT | ldKey | ldDT | ldST | addI | ldF | ldB | store | load =>
    unfold decode
    rw [fieldOp_of_hits h rfl, fieldNN_of_hits h rfl]
    rfl

/-! ### The table: every encoding is matched

The three masks of the table on a word written as its parts. -/

theorem nibble_and_F (n : Nibble) : n &&& 0xF#4 = n := BitVec.and_allOnes

theorem mask_op_nnn (op : Nibble) (nnn : Addr12) : (op ++ nnn : Word) &&& 0xF000#16 = op ++ 0x000#12 := by
  rw [show (0xF000#16 : Word) = 0xF#4 ++ 0x000#12 from rfl, BitVec.and_append, nibble_and_F, BitVec.and_zero]

theorem mask_op_xnn (op x : Nibble) (nn : Byte) : (op ++ x ++ nn : Word) &&& 0xF000#16 = op ++ 0x000#12 := by
  rw [append_assoc_word, mask_op_nnn]

theorem mask_op_xyn (op x y n : Nibble) : (op ++ x ++ y ++ n : Word) &&& 0xF000#16 = op ++ 0x000#12 := by
  rw [append_assoc_xnn, mask_op_xnn]

theorem mask_op_n (op x y n : Nibble) :
    (op ++ x ++ y ++ n : Word) &&& 0xF00F#16 = op ++ 0x0#4 ++ 0x0#4 ++ n := by
  rw [show (0xF00F#16 : Word) = 0xF#4 ++ 0x0#4 ++ 0x0#4 ++ 0xF#4 from rfl, BitVec.and_append, BitVec.and_append,
    BitVec.and_append, nibble_and_F, nibble_and_F, BitVec.and_zero, BitVec.and_zero]

theorem mask_op_nn (op x : Nibble) (nn : Byte) :
    (op ++ x ++ nn : Word) &&& 0xF0FF#16 = op ++ 0x0#4 ++ nn := by
  have hnn : nn &&& 0xFF#8 = nn := BitVec.and_allOnes
  rw [show (0xF0FF#16 : Word) = 0xF#4 ++ 0x0#4 ++ 0xFF#8 from rfl, BitVec.and_append, BitVec.and_append,
    nibble_and_F, BitVec.and_zero, hnn]

theorem exists_hits_of_masked {w mask pattern : Word}
    (hrow : ∃ r ∈ opcodeTable, r.mask = mask ∧ r.pattern = pattern ∧ r.excluded = []) (hw : w &&& mask = pattern) :
    ∃ r ∈ opcodeTable, r.hits w = true := by
  obtain ⟨r, hr, rfl, rfl, hexcluded⟩ := hrow
  exact ⟨r, hr, (r.hits_iff w).mpr ⟨hw, by simp [hexcluded]⟩⟩

/-- Every instruction's word is matched: `SYS` by row 3, whose exclusions are the condition `wf`, any other by the row with
its mask and pattern. -/
theorem exists_hits_encode {i : Instr} (h : i.wf = true) : ∃ r ∈ opcodeTable, r.hits (encode i) = true := by
  cases i
  case cls | ret => decide
  case sys nnn =>
    have hexcluded := (sys_wf_iff (w := 0x0#4 ++ nnn) (fieldOp_nnn _ _)).mp (by rwa [fieldNNN_nnn])
    refine ⟨opcodeTable[2], List.getElem_mem _, (OpcodeRow.hits_iff _ _).mpr ⟨mask_op_nnn _ _, ?_⟩⟩
    simpa [opcodeTable, opcodeRowsA, encode] using hexcluded
  case jp | call | ldI | jpV0 => exact exists_hits_of_masked (by decide) (mask_op_nnn _ _)
  case seImm | sneImm | ldImm | addImm | rnd => exact exists_hits_of_masked (by decide) (mask_op_xnn _ _ _)
  case drw => exact exists_hits_of_masked (by decide) (mask_op_xyn _ _ _ _)
  case seReg | ldReg | orReg | andReg | xorReg | addReg | sub | shr | subn | shl | sneReg =>
    exact exists_hits_of_masked (by decide) (mask_op_n _ _ _ _)
  case skp | sknp | ldFromDT | ldKey | ldDT | ldST | addI | ldF | ldB | store | load =>
    exact exists_hits_of_masked (by decide) (mask_op_nn _ _ _)

/-- Settles O3: a row that matches gives what the pseudocode gives, and an instruction's word is matched by some row. -/
theorem pseudocodeDecodesAsTable : Obligations.PseudocodeDecodesAsTable := by
  intro w
  unfold decodeByTable
  cases hfind : opcodeTable.find? (·.hits w) with
  | some r =>
    rw [decode_of_hits (List.mem_of_find?_eq_some hfind) (List.find?_some (p := fun r : OpcodeRow => r.hits w) hfind)]
    rfl
  | none =>
    cases hdecode : decode w with
    | error e => rfl
    | ok i =>
      obtain ⟨hwf, rfl⟩ := encodeInvertsDecode w i hdecode
      obtain ⟨r, hr, hhits⟩ := exists_hits_encode hwf
      exact absurd hhits (List.find?_eq_none.mp hfind r hr)

/-! ### The table: the rows exclude one another -/

/-- Two rows have no word in common, to see from their data: the patterns differ in a bit that both rows look at, or the
first row is a single word and the second excludes it. -/
def OpcodeRow.apartFrom (r q : OpcodeRow) : Bool :=
  r.pattern &&& q.mask != q.pattern &&& r.mask || r.mask == 0xFFFF#16 && q.excluded.contains r.pattern

theorem OpcodeRow.not_both_hit {r q : OpcodeRow} (h : r.apartFrom q = true) (w : Word) :
    ¬(r.hits w = true ∧ q.hits w = true) := by
  rintro ⟨hr, hq⟩
  obtain ⟨hrpattern, -⟩ := (r.hits_iff w).mp hr
  obtain ⟨hqpattern, hqexcluded⟩ := (q.hits_iff w).mp hq
  simp only [apartFrom, Bool.or_eq_true, Bool.and_eq_true, bne_iff_ne, beq_iff_eq, List.contains_iff_mem] at h
  rcases h with hbit | ⟨hmask, hexcluded⟩
  · refine hbit ?_
    rw [← hrpattern, ← hqpattern]
    ac_rfl
  · exact hqexcluded (eq_pattern_of_hits hr hmask ▸ hexcluded)

theorem opcodeTable_apart : opcodeTable.Pairwise fun r q => r.apartFrom q = true := by decide

/-- Settles O4: masks and patterns keep any two rows apart, but CLS and RET from SYS, which excludes their words. -/
theorem opcodeRowsDisjoint : Obligations.OpcodeRowsDisjoint :=
  ⟨rfl, opcodeTable_apart.imp OpcodeRow.not_both_hit⟩

end Sys2Proof
end

section
/-! PROOFS. Illegal words (spec/30_encoding.md R96, R97): which words of each family are illegal, and how many. -/

namespace Sys2Proof.Machine

/-! ### The low nibbles and bytes that R97 names -/

/-- The low nibbles N with which a word 8XYN is illegal. -/
def aluIllegalN : List Nibble := [0x8#4, 0x9#4, 0xA#4, 0xB#4, 0xC#4, 0xD#4, 0xF#4]

/-- The low bytes NN with which a word EXNN is an instruction. -/
def keyLegalNN : List Byte := [0x9E#8, 0xA1#8]

/-- The low bytes NN with which a word FXNN is an instruction. -/
def miscLegalNN : List Byte := [0x07#8, 0x0A#8, 0x15#8, 0x18#8, 0x1E#8, 0x29#8, 0x33#8, 0x55#8, 0x65#8]

theorem illegalWord_eq (w : Word) : illegalWord w = !(decode w).isOk := by
  unfold illegalWord
  cases decode w <;> rfl

theorem decodeZero_isOk (w : Word) : (decodeZero w).isOk = decide (fieldNNN w ≠ 0x000#12) := by
  unfold decodeZero
  split_ifs with hcls hret hnnn
  · subst hcls; rfl
  · subst hret; rfl
  · rw [hnnn]; rfl
  · exact (decide_eq_true hnnn).symm

theorem decodeAlu_isOk (x y n : Nibble) : (decodeAlu x y n).isOk = decide (n ∉ aluIllegalN) := by
  unfold decodeAlu
  split
  case h_10 =>
    have := nibble_mem n
    simp_all [aluIllegalN, Except.isOk, Except.toBool]
  all_goals rfl

theorem decodeKey_isOk (x : Nibble) (nn : Byte) : (decodeKey x nn).isOk = decide (nn ∈ keyLegalNN) := by
  unfold decodeKey
  split
  case h_3 => simp_all [keyLegalNN, Except.isOk, Except.toBool]
  all_goals rfl

theorem decodeMisc_isOk (x : Nibble) (nn : Byte) : (decodeMisc x nn).isOk = decide (nn ∈ miscLegalNN) := by
  unfold decodeMisc
  split
  case h_10 => simp_all [miscLegalNN, Except.isOk, Except.toBool]
  all_goals rfl

/-! ### Each family's illegal words -/

theorem illegalWord_zero {w : Word} (hop : fieldOp w = 0x0#4) : illegalWord w = decide (fieldNNN w = 0x000#12) := by
  simp [illegalWord_eq, decode, hop, decodeZero_isOk]

theorem illegalWord_compare {w : Word} (hop : fieldOp w = 0x5#4 ∨ fieldOp w = 0x9#4) :
    illegalWord w = decide (fieldN w ≠ 0x0#4) := by
  rw [illegalWord_eq, decode]
  rcases hop with hop | hop <;> rw [hop] <;> by_cases hn : fieldN w = 0x0#4 <;>
    simp [hn, Except.isOk, Except.toBool]

theorem illegalWord_alu {w : Word} (hop : fieldOp w = 0x8#4) :
    illegalWord w = decide (fieldN w ∈ aluIllegalN) := by
  simp [illegalWord_eq, decode, hop, decodeAlu_isOk]

theorem illegalWord_key {w : Word} (hop : fieldOp w = 0xE#4) :
    illegalWord w = decide (fieldNN w ∉ keyLegalNN) := by
  simp [illegalWord_eq, decode, hop, decodeKey_isOk]

theorem illegalWord_misc {w : Word} (hop : fieldOp w = 0xF#4) :
    illegalWord w = decide (fieldNN w ∉ miscLegalNN) := by
  simp [illegalWord_eq, decode, hop, decodeMisc_isOk]

theorem illegalWord_other {w : Word} (hop : fieldOp w ∉ [0x0#4, 0x5#4, 0x8#4, 0x9#4, 0xE#4, 0xF#4]) :
    illegalWord w = false := by
  have := nibble_mem (fieldOp w)
  rw [illegalWord_eq, decode]
  split <;> simp_all [Except.isOk, Except.toBool]

/-- The six kinds of family that R97 tells apart. -/
theorem family_cases (op : Nibble) : op = 0x0#4 ∨ (op = 0x5#4 ∨ op = 0x9#4) ∨ op = 0x8#4 ∨ op = 0xE#4 ∨ op = 0xF#4 ∨
    op ∉ [0x0#4, 0x5#4, 0x8#4, 0x9#4, 0xE#4, 0xF#4] := by
  revert op
  decide

theorem word_eq_zero_iff (w : Word) : w = 0x0000#16 ↔ fieldOp w = 0x0#4 ∧ fieldNNN w = 0x000#12 := by
  refine ⟨fun h => h ▸ ⟨rfl, rfl⟩, fun ⟨hop, hnnn⟩ => (eq_zero_append_iff hop _).mpr hnnn⟩

theorem illegalWord_iff (w : Word) : illegalWord w = true ↔
    w = 0x0000#16 ∨
    ((fieldOp w = 0x5#4 ∨ fieldOp w = 0x9#4) ∧ fieldN w ≠ 0x0#4) ∨
    (fieldOp w = 0x8#4 ∧ fieldN w ∈ aluIllegalN) ∨
    (fieldOp w = 0xE#4 ∧ fieldNN w ∉ keyLegalNN) ∨
    (fieldOp w = 0xF#4 ∧ fieldNN w ∉ miscLegalNN) := by
  rw [word_eq_zero_iff]
  rcases family_cases (fieldOp w) with hop | hop | hop | hop | hop | hop
  · simp [illegalWord_zero, hop]
  · rcases hop with hop | hop <;> simp [illegalWord_compare, hop]
  · simp [illegalWord_alu, hop]
  · simp [illegalWord_key, hop]
  · simp [illegalWord_misc, hop]
  · simp only [List.mem_cons, List.not_mem_nil, not_or] at hop
    simp [illegalWord_other, hop]

/-! ### Counting -/

theorem countP_range_mul_of_periodic {f : Nat → Bool} {m : Nat} (hf : Function.Periodic f m) (q : Nat) :
    (List.range (q * m)).countP f = q * (List.range m).countP f := by
  induction q with
  | zero => simp
  | succ q ih =>
    have hshift : f ∘ (q * m + ·) = f := by
      funext k
      rw [Function.comp_apply, Nat.add_comm]
      exact hf.nat_mul q k
    rw [Nat.succ_mul, List.range_add, List.countP_append, ih, List.countP_map, hshift, Nat.succ_mul]

/-- In a family where the last `l` bits of a word say whether it is illegal, each of their values stands for 2 ^ j words. -/
theorem countP_illegalWord_of_low {op : Nibble} {j l : Nat} (hl : j + l = 12) (p : BitVec l → Bool)
    (h : ∀ w : Word, fieldOp w = op → illegalWord w = p (w.extractLsb' 0 l)) :
    (List.range 4096).countP (fun k => illegalWord (op ++ BitVec.ofNat 12 k)) =
      2 ^ j * (List.range (2 ^ l)).countP (fun k => p (BitVec.ofNat l k)) := by
  have hlow (k : Nat) : illegalWord (op ++ BitVec.ofNat 12 k) = p (BitVec.ofNat l k) := by
    rw [h _ (fieldOp_nnn _ _), extract_low _ _ _ _ (by omega), ← BitVec.setWidth_eq_extractLsb' (by omega),
      BitVec.setWidth_ofNat_of_le (by omega)]
  have hperiodic : Function.Periodic (fun k => p (BitVec.ofNat l k)) (2 ^ l) := fun k =>
    congrArg p (BitVec.eq_of_toNat_eq (by simp))
  rw [← countP_range_mul_of_periodic hperiodic, ← pow_add, hl]
  simp only [hlow]
  rfl

theorem countP_illegalWord_zero :
    (List.range 4096).countP (fun k => illegalWord (0x0#4 ++ BitVec.ofNat 12 k)) = 1 := by
  have hiff : ∀ k ∈ List.range 4096, illegalWord (0x0#4 ++ BitVec.ofNat 12 k) = true ↔ (k == 0) = true := by
    intro k hk
    rw [illegalWord_zero (fieldOp_nnn _ _), fieldNNN_nnn, decide_eq_true_iff, ← BitVec.toNat_inj]
    simp [Nat.mod_eq_of_lt (List.mem_range.mp hk)]
  rw [List.countP_congr hiff]
  exact List.count_eq_one_of_mem List.nodup_range (by simp)

theorem countP_illegalWord (op : Nibble) :
    (List.range 4096).countP (fun k => illegalWord (op ++ BitVec.ofNat 12 k)) = illegalInFamily op := by
  rcases family_cases op with rfl | hop | rfl | rfl | rfl | hop
  · exact countP_illegalWord_zero
  · rw [countP_illegalWord_of_low (j := 8) rfl (fun n : Nibble => decide (n ≠ 0x0#4))
      fun w hw => illegalWord_compare (hw ▸ hop)]
    rcases hop with rfl | rfl <;> decide
  · rw [countP_illegalWord_of_low (j := 8) rfl (fun n : Nibble => decide (n ∈ aluIllegalN)) fun w => illegalWord_alu]
    decide
  · rw [countP_illegalWord_of_low (j := 4) rfl (fun nn : Byte => decide (nn ∉ keyLegalNN)) fun w => illegalWord_key]
    decide +kernel
  · rw [countP_illegalWord_of_low (j := 4) rfl (fun nn : Byte => decide (nn ∉ miscLegalNN)) fun w => illegalWord_misc]
    decide +kernel
  · have hnone : illegalInFamily op = 0 := by
      revert op
      decide
    simp [hnone, illegalWord_other, hop]

/-- Settles O5, by the six kinds of family: in each, one field of the word decides, and its values are counted. -/
theorem illegalWordsExactly : Obligations.IllegalWordsExactly :=
  ⟨illegalWord_iff, countP_illegalWord, by decide, rfl⟩

end Sys2Proof.Machine
end

section
/-! PROOFS. Control flow (spec/40_control_flow.md): the instruction step on a legal and on an illegal word, the core's turn
without a step, and the jumps, calls, returns and skips. -/

namespace Sys2Proof.Machine

/-! ### The instruction step (R130 to R134) -/

theorem instructionStep_of_fetch {s : State} {w : Word} (h : fetch s.mem s.pc = some w) :
    instructionStep s = decodeAndExecute s.pc w (s.setPc (s.pc + 2#16)) := by
  unfold instructionStep
  rw [h]

theorem decodeAndExecute_of_ok {a w : Word} {i : Instr} (h : decode w = .ok i) (s : State) :
    decodeAndExecute a w s = exec i s := by
  unfold decodeAndExecute
  rw [h]

theorem decode_of_illegalWord {w : Word} (h : illegalWord w = true) : ∃ e, decode w = .error e := by
  unfold illegalWord at h
  split at h
  · cases h
  · next e he => exact ⟨e, he⟩

theorem decodeAndExecute_of_illegalWord {w : Word} (h : illegalWord w = true) (a : Word) (s : State) :
    decodeAndExecute a w s = takeFault s (.decodeFailure w a) := by
  obtain ⟨e, he⟩ := decode_of_illegalWord h
  unfold decodeAndExecute
  rw [he]

theorem coreTurn_of_waiting {s : State} {x : Nibble} (h : s.run = .waitingForKey x) : coreTurn s = .next s := by
  unfold coreTurn
  rw [h]

/-- Settles O8: the step is fetch, advance, decode and execute, in that order. -/
theorem stepRunsDecodedInstruction : Obligations.StepRunsDecodedInstruction := by
  intro s u i hrun hturn hpc hdec
  rw [step_of_running hrun hturn]
  obtain ⟨g, -, rfl⟩ := hturn
  have hfetch := fetch_eq_bytesWord s.mem hpc
  rw [instructionStep_of_fetch (s := s.setAgenda g) hfetch, decodeAndExecute_of_ok hdec]
  rfl

/-- Settles O10: the fault is taken after the advance, so both changes and no others show. -/
theorem illegalWordHalts : Obligations.IllegalWordHalts := by
  intro s u w hrun hturn hfetch hill
  rw [step_of_running hrun hturn]
  obtain ⟨g, -, rfl⟩ := hturn
  rw [instructionStep_of_fetch (s := s.setAgenda g) hfetch, decodeAndExecute_of_illegalWord hill]
  have hframe := onlyChanges_trans (onlyChanges_setPc (s.setAgenda g) (s.pc + 2#16))
    (onlyChanges_halt _ (.decodeFailure w s.pc))
  exact ⟨_, rfl, rfl, rfl, onlyChanges_mono hframe (by simp)⟩

/-- Settles O11: the turn is taken off the agenda, and the waiting core leaves it at that. -/
theorem coreWithoutStep : Obligations.CoreWithoutStep := by
  refine ⟨fun s u x hrun hturn => ?_, fun s r => step_halted⟩
  rw [step_of_hasTurn (.inr ⟨x, hrun⟩) hturn]
  obtain ⟨g, -, rfl⟩ := hturn
  exact ⟨_, coreTurn_of_waiting hrun, rfl, onlyChanges_setAgenda s g⟩

/-! ### Targets -/

/-- A well-formed instruction and its word stand for one another. -/
theorem encodes_encode {i : Instr} (h : i.wf = true) : Encodes (encode i) i := ⟨rfl, decode_encode h⟩

@[simp] theorem addrOf_toNat (nnn : Addr12) : (addrOf nnn).toNat = nnn.toNat :=
  BitVec.toNat_setWidth_of_le (by decide)

/-- The word of a family-0 instruction is NNN itself. -/
theorem addrOf_eq_append (nnn : Addr12) : addrOf nnn = 0x0#4 ++ nnn :=
  BitVec.eq_of_toNat_eq (by rw [addrOf_toNat, append_toNat, BitVec.toNat_ofNat]; omega)

/-- The sum of R139 fits in 16 bits: nothing wraps (D32). -/
theorem offsetTarget_toNat (s : State) (nnn : Addr12) :
    (s.offsetTarget nnn).toNat = nnn.toNat + (s.reg 0x0#4).toNat := by
  have hreg : (s.regWide 0x0#4).toNat = (s.reg 0x0#4).toNat := BitVec.toNat_setWidth_of_le (by decide)
  rw [State.offsetTarget, BitVec.toNat_add, addrOf_toNat, hreg]
  omega

/-! ### The control transfer instructions (R135 to R139) -/

theorem exec_ret_of_cons {s : State} {top : Word} {rest : List Word} (h : s.stack = top :: rest) :
    exec .ret s = .next ((s.setStack rest).setPc top) := by
  rw [exec, execRet_eq, h]
  rfl

theorem exec_ret_of_nil {s : State} (h : s.stack = []) : exec .ret s = takeFault s (.stackUnderflow s.pc) := by
  rw [exec, execRet_eq, if_pos h, takeFault_eq]

theorem exec_call_of_room {s : State} (nnn : Addr12) (h : s.stack.length < 16) :
    exec (.call nnn) s = .next ((s.push s.pc).setPc (addrOf nnn)) := by
  rw [exec, execCall_eq, if_neg (Nat.not_le.mpr h)]

theorem exec_call_of_full {s : State} (nnn : Addr12) (h : 16 ≤ s.stack.length) :
    exec (.call nnn) s = takeFault s (.stackOverflow s.pc) := by
  rw [exec, execCall_eq, if_pos h, takeFault_eq]

/-- A pop or a push with its jump. -/
theorem onlyChanges_setStack_setPc (s : State) (st : List Word) (v : Word) :
    OnlyChanges [.pc, .stack] s ((s.setStack st).setPc v) :=
  onlyChanges_mono (onlyChanges_trans (onlyChanges_setStack s st) (onlyChanges_setPc _ v)) (by simp)

/-- Settles O20: the call pushes pc, and the return takes that entry off again, which leaves the very same state. -/
theorem returnUndoesCall : Obligations.ReturnUndoesCall := fun s nnn hroom =>
  ⟨_, s, exec_call_of_room nnn hroom, exec_ret_of_cons (s := (s.push s.pc).setPc (addrOf nnn)) rfl,
    onlyChanges_refl [] s⟩

/-- Settles O16: the word that the report rebuilds is the instruction's own. -/
theorem sysReportsOnly : Obligations.SysReportsOnly := by
  intro s nnn
  refine ⟨fun hzero hcls hret => encodes_encode (by simp [Instr.wf, hzero, hcls, hret]), _, rfl, ?_,
    onlyChanges_report s _⟩
  rw [← addrOf_eq_append]
  rfl

/-- Settles O17, by whether the stack has a top. -/
theorem retPopsOrUnderflows : Obligations.RetPopsOrUnderflows := by
  refine ⟨encodes_encode rfl, fun s top rest hs => ?_, fun s hs => ?_⟩
  · exact ⟨_, exec_ret_of_cons hs, rfl, rfl, onlyChanges_setStack_setPc s rest top⟩
  · rw [exec_ret_of_nil hs]
    exact haltsWith_takeFault s _

/-- Settles O18: both targets as numbers, the second one's sum in range. -/
theorem jumpsSetPc : Obligations.JumpsSetPc := fun s nnn =>
  ⟨encodes_encode rfl, encodes_encode rfl,
    ⟨_, rfl, addrOf_toNat nnn, onlyChanges_setPc s _⟩,
    ⟨_, rfl, offsetTarget_toNat s nnn, onlyChanges_setPc s _⟩⟩

/-- Settles O19, by whether the stack has room. -/
theorem callPushesOrOverflows : Obligations.CallPushesOrOverflows := by
  refine fun s nnn => ⟨encodes_encode rfl, fun hroom => ?_, fun hfull => ?_⟩
  · exact ⟨_, exec_call_of_room nnn hroom, rfl, addrOf_toNat nnn, onlyChanges_setStack_setPc s _ _⟩
  · rw [exec_call_of_full nnn hfull.ge]
    exact haltsWith_takeFault s _

/-! ### The skips (R140 to R143) -/

theorem skipIf_beq_pc (s : State) (a b : Byte) :
    (s.skipIf (a == b)).pc = if a = b then s.pc + 2#16 else s.pc := by
  simp [skipIf_eq]

theorem skipIf_bne_pc (s : State) (a b : Byte) :
    (s.skipIf (a != b)).pc = if a = b then s.pc else s.pc + 2#16 := by
  simp [skipIf_eq]

/-- Settles O21: each skip is `skipIf` of its comparison. -/
theorem skipsOnCondition : Obligations.SkipsOnCondition := fun s x y nn =>
  ⟨encodes_encode rfl, encodes_encode rfl, encodes_encode rfl, encodes_encode rfl,
    ⟨_, rfl, skipIf_beq_pc s (s.reg x) nn, onlyChanges_skipIf s _⟩,
    ⟨_, rfl, skipIf_bne_pc s (s.reg x) nn, onlyChanges_skipIf s _⟩,
    ⟨_, rfl, skipIf_beq_pc s (s.reg x) (s.reg y), onlyChanges_skipIf s _⟩,
    ⟨_, rfl, skipIf_bne_pc s (s.reg x) (s.reg y), onlyChanges_skipIf s _⟩⟩

end Sys2Proof.Machine
end

section
/-! PROOFS. The wait that no event ends (spec/40_control_flow.md R134, spec/60_exceptions.md R320 to R330): each step waits on,
so every reached state waits, and under a fair agenda both timers run out. -/

namespace Sys2Proof.Machine

/-! ### Runs -/

theorem Reaches.trans {s t u : State} (h : Reaches s t) (h' : Reaches t u) : Reaches s u := by
  induction h' with
  | start => exact h
  | after _ hs ih => exact .after ih hs

/-- What every step keeps holds of every state reached. -/
theorem Reaches.keeps {P : State → Prop} (hstep : ∀ t u, P t → step t = .next u → P u) {s t : State} (h : Reaches s t)
    (hs : P s) : P t := by
  induction h with
  | start => exact hs
  | after _ hu ih => exact hstep _ _ ih hu

/-! ### A fair agenda comes to the timer's turn -/

/-- The timer's turn comes after finitely many others. -/
inductive Agenda.TickComes : Agenda → Prop where
  | now {g : Agenda} (h : g.next = .tick) : TickComes g
  | later {g : Agenda} (h : TickComes g.rest) : TickComes g

theorem tickComes_of_mem_listed {ts : List Turn} (h : .tick ∈ ts) (c : List Turn) (n : Nat) :
    Agenda.TickComes ⟨ts, c, n⟩ := by
  induction ts with
  | nil => exact absurd h List.not_mem_nil
  | cons b ts ih =>
    rcases List.mem_cons.mp h with rfl | h
    · exact .now rfl
    · exact .later (ih h)

/-- The cycle is listed again where nothing is. -/
theorem tickComes_of_mem_cycle {c : List Turn} (h : .tick ∈ c) (n : Nat) : Agenda.TickComes ⟨[], c, n⟩ := by
  cases c with
  | nil => exact absurd h List.not_mem_nil
  | cons b ts =>
    rcases List.mem_cons.mp h with rfl | h
    · exact .now rfl
    · exact .later (tickComes_of_mem_listed h (b :: ts) n)

theorem tickComes_of_freeTurn {k n : Nat} (h : Config.freeTurn (n + k) = .tick) : Agenda.TickComes ⟨[], [], n⟩ := by
  induction k generalizing n with
  | zero => exact .now h
  | succ k ih => exact .later (ih (n := n + 1) (by rwa [Nat.add_right_comm]))

/-- The turns listed pass first. -/
theorem tickComes_of_nil_listed {c : List Turn} {n : Nat} (h : Agenda.TickComes ⟨[], c, n⟩) (ts : List Turn) :
    Agenda.TickComes ⟨ts, c, n⟩ := by
  induction ts with
  | nil => exact h
  | cons b ts ih => exact .later ih

theorem tickComes_of_fairToTimer {g : Agenda} (h : g.FairToTimer) : g.TickComes := by
  obtain ⟨ts, c, n⟩ := g
  refine tickComes_of_nil_listed ?_ ts
  rcases h with hc | ⟨rfl, hfree⟩
  · exact tickComes_of_mem_cycle hc n
  · obtain ⟨m, hle, hm⟩ := hfree n
    exact tickComes_of_freeTurn (k := m - n) (by rwa [Nat.add_sub_cancel' hle])

/-! ### One step of the wait -/

/-- Waiting for a key to put in V[x], and no event that ends the wait is ever to come. -/
def State.WaitsOn (s : State) (x : Nibble) : Prop := s.run = .waitingForKey x ∧ s.agenda.LeavesWaiting

/-- The state with the next turn taken off the agenda. -/
def State.turnTaken (s : State) : State := s.setAgenda s.agenda.rest

/-- Both timers counted down. -/
def State.countedDown (s : State) : State := (s.setDT (countDown s.DT)).setST (countDown s.ST)

theorem timerTick_of_alive {s : State} (h : s.alive = true) : timerTick s = s.countedDown := if_pos h

theorem redrawStep_of_alive {s : State} (h : s.alive = true) : redrawStep s = s.handOff := if_pos h

theorem onlyChanges_countedDown (s : State) : OnlyChanges [.delay, .sound] s s.countedDown :=
  onlyChanges_trans (onlyChanges_setDT s _) (onlyChanges_setST _ _)

theorem waitsOn_turnTaken {s : State} {x : Nibble} (h : s.WaitsOn x) : s.turnTaken.WaitsOn x :=
  h.imp_right leavesWaiting_rest

theorem alive_of_waitsOn {s : State} {x : Nibble} (h : s.WaitsOn x) : s.alive = true :=
  notHalted_iff.mp (.inr ⟨x, h.1⟩)

theorem step_of_tick_next {s : State} (h : s.alive = true) (hn : s.agenda.next = .tick) :
    step s = .next s.turnTaken.countedDown := by
  rw [step_alive h, hn]
  exact congrArg _ (timerTick_of_alive (s := s.turnTaken) h)

/-- Everything that a step can do in such a wait: a turn of the core or the redraw leaves the timers alone. -/
theorem step_cases_of_waitsOn {s : State} {x : Nibble} (h : s.WaitsOn x) :
    (s.agenda.next = .tick ∧ step s = .next s.turnTaken.countedDown) ∨
      step s = .next s.turnTaken ∨ step s = .next s.turnTaken.handOff := by
  have halive := alive_of_waitsOn h
  obtain ⟨hrun, hleaves⟩ := h
  rcases hleaves _ (mayYield_next s.agenda) with hn | hn | hn
  · refine .inr (.inl ?_)
    rw [step_alive halive, hn]
    exact coreTurn_of_waiting (s := s.turnTaken) hrun
  · exact .inl ⟨hn, step_of_tick_next halive hn⟩
  · refine .inr (.inr ?_)
    rw [step_alive halive, hn]
    exact congrArg _ (redrawStep_of_alive (s := s.turnTaken) halive)

/-- The parts of the state that change in such a wait (R322). -/
def idleParts : List Part := [.delay, .sound, .dirty, .snapshot, .agenda]

theorem onlyChanges_turnTaken_trans {ps : List Part} {s t : State} (h : OnlyChanges ps s.turnTaken t)
    (hps : ps ⊆ idleParts) : OnlyChanges idleParts s t :=
  onlyChanges_mono (onlyChanges_trans (onlyChanges_setAgenda s s.agenda.rest) h)
    (List.append_subset.mpr ⟨by simp [idleParts], hps⟩)

/-- The step exists, takes the next turn off the agenda, waits on and changes nothing but the idle parts. -/
theorem exists_step_of_waitsOn {s : State} {x : Nibble} (h : s.WaitsOn x) :
    ∃ t, step s = .next t ∧ t.WaitsOn x ∧ t.agenda = s.agenda.rest ∧ OnlyChanges idleParts s t := by
  have hwaits := waitsOn_turnTaken h
  rcases step_cases_of_waitsOn h with ⟨-, hs⟩ | hs | hs
  · exact ⟨_, hs, hwaits, rfl, onlyChanges_turnTaken_trans (onlyChanges_countedDown _) (by simp [idleParts])⟩
  · exact ⟨_, hs, hwaits, rfl, onlyChanges_turnTaken_trans (onlyChanges_refl [] _) (List.nil_subset _)⟩
  · exact ⟨_, hs, hwaits, rfl, onlyChanges_turnTaken_trans (onlyChanges_handOff _) (by simp [idleParts])⟩

/-- The same of the next state a step has. -/
theorem step_of_waitsOn {s t : State} {x : Nibble} (h : s.WaitsOn x) (hs : step s = .next t) :
    t.WaitsOn x ∧ t.agenda = s.agenda.rest ∧ OnlyChanges idleParts s t := by
  obtain ⟨u, hu, hkept⟩ := exists_step_of_waitsOn h
  cases hu.symm.trans hs
  exact hkept

/-! ### The whole wait -/

theorem waitsOn_of_reaches {s t : State} {x : Nibble} (h : s.WaitsOn x) (hr : Reaches s t) :
    t.WaitsOn x ∧ OnlyChanges idleParts s t := by
  refine hr.keeps (P := fun t => t.WaitsOn x ∧ OnlyChanges idleParts s t) (fun t u ht hs => ?_)
    ⟨h, onlyChanges_refl _ s⟩
  obtain ⟨hu, -, hframe⟩ := step_of_waitsOn ht.1 hs
  exact ⟨hu, onlyChanges_mono (onlyChanges_trans ht.2 hframe) (by simp)⟩

theorem fairToTimer_of_reaches {s t : State} {x : Nibble} (h : s.WaitsOn x) (hfair : s.agenda.FairToTimer)
    (hr : Reaches s t) : t.agenda.FairToTimer := by
  refine (hr.keeps (P := fun t => t.WaitsOn x ∧ t.agenda.FairToTimer) (fun t u ht hs => ?_) ⟨h, hfair⟩).2
  obtain ⟨hu, hagenda, -⟩ := step_of_waitsOn ht.1 hs
  exact ⟨hu, hagenda ▸ fairToTimer_rest ht.2⟩

theorem countDown_toNat (b : Byte) : (countDown b).toNat = b.toNat - 1 := by
  unfold countDown
  split
  · next h => rw [h]; rfl
  · next h => bv_omega

/-- Where the timer's turn comes, the wait reaches a state in which both timers have counted down once. -/
theorem reaches_countDown {s : State} {x : Nibble} (h : s.WaitsOn x) (hcomes : s.agenda.TickComes) :
    ∃ t, Reaches s t ∧ t.DT = countDown s.DT ∧ t.ST = countDown s.ST := by
  generalize hg : s.agenda = g at hcomes
  induction hcomes generalizing s with
  | now hn =>
    subst hg
    exact ⟨_, .after .start (step_of_tick_next (alive_of_waitsOn h) hn), rfl, rfl⟩
  | later _ ih =>
    subst hg
    have hwaits := waitsOn_turnTaken h
    rcases step_cases_of_waitsOn h with ⟨-, hs⟩ | hs | hs
    · exact ⟨_, .after .start hs, rfl, rfl⟩
    · obtain ⟨t, hr, ht⟩ := ih (s := s.turnTaken) hwaits rfl
      exact ⟨t, .trans (.after .start hs) hr, ht⟩
    · obtain ⟨t, hr, ht⟩ := ih (s := s.turnTaken.handOff) hwaits rfl
      exact ⟨t, .trans (.after .start hs) hr, ht⟩

/-- The timers run out, by as many ticks as the greater one asks for. -/
theorem reaches_timers_zero {s : State} {x : Nibble} (h : s.WaitsOn x) (hfair : s.agenda.FairToTimer) (n : Nat)
    (hDT : s.DT.toNat ≤ n) (hST : s.ST.toNat ≤ n) : ∃ t, Reaches s t ∧ t.DT = 0x00#8 ∧ t.ST = 0x00#8 := by
  induction n generalizing s with
  | zero => exact ⟨s, .start, by bv_omega, by bv_omega⟩
  | succ n ih =>
    obtain ⟨t, hst, htDT, htST⟩ := reaches_countDown h (tickComes_of_fairToTimer hfair)
    obtain ⟨u, htu, hu⟩ := ih (waitsOn_of_reaches h hst).1 (fairToTimer_of_reaches h hfair hst)
      (by rw [htDT, countDown_toNat]; omega) (by rw [htST, countDown_toNat]; omega)
    exact ⟨u, hst.trans htu, hu⟩

/-- Settles O60: waiting on is what every step keeps, and each tick of a fair agenda counts the timers down. -/
theorem waitWithoutKeyNeverEnds : Obligations.WaitWithoutKeyNeverEnds := by
  intro s x hrun hleaves
  have h : s.WaitsOn x := ⟨hrun, hleaves⟩
  have hreach (t : State) (hr : Reaches s t) := waitsOn_of_reaches h hr
  refine ⟨?_, fun t hr r hhalted => ?_, fun t hr => ?_, fun hfair => ?_⟩
  · obtain ⟨t, hs, ⟨htrun, htleaves⟩, -, hframe⟩ := exists_step_of_waitsOn h
    exact ⟨t, hs, htrun, htleaves, hframe⟩
  · obtain ⟨⟨htrun, -⟩, -⟩ := hreach t hr
    cases htrun.symm.trans hhalted
  · obtain ⟨⟨htrun, -⟩, hframe⟩ := hreach t hr
    exact ⟨htrun, hframe⟩
  · exact reaches_timers_zero h hfair 255 (by omega) (by omega)

end Sys2Proof.Machine
end

section
/-! PROOFS. The ALU (spec/41_alu.md): what a write to the destination, with or without the flag, leaves in each register, what the
flags are as numbers, and each instruction from these; and the random draw. -/

namespace Sys2Proof.Machine

/-! ### One register written, no flag -/

theorem reg_setReg_self (s : State) (x : Nibble) (v : Byte) : (s.setReg x v).reg x = v := by simp

theorem regsKeptBut_setReg (s : State) (x : Nibble) (v : Byte) : RegsKeptBut [x] s (s.setReg x v) := by
  intro r hr
  rw [reg_setReg, if_neg (mt List.mem_singleton.mpr hr)]

/-- Settles O22: each of the three is one `setReg`. -/
theorem loadsAndAddImmediate : Obligations.LoadsAndAddImmediate := fun s x _ _ =>
  ⟨encodes_encode rfl, encodes_encode rfl, encodes_encode rfl,
    ⟨_, rfl, reg_setReg_self s x _, regsKeptBut_setReg s x _, onlyChanges_setReg s x _⟩,
    ⟨_, rfl, by rw [reg_setReg_self, BitVec.toNat_add], regsKeptBut_setReg s x _, onlyChanges_setReg s x _⟩,
    ⟨_, rfl, reg_setReg_self s x _, regsKeptBut_setReg s x _, onlyChanges_setReg s x _⟩⟩

/-- Settles O23: each of the three is one `setReg` of a bitwise operation. -/
theorem bitwiseInPlace : Obligations.BitwiseInPlace := fun s x _ =>
  ⟨encodes_encode rfl, encodes_encode rfl, encodes_encode rfl,
    ⟨_, rfl, fun _ => by rw [reg_setReg_self, BitVec.getLsbD_or], regsKeptBut_setReg s x _,
      onlyChanges_setReg s x _⟩,
    ⟨_, rfl, fun _ => by rw [reg_setReg_self, BitVec.getLsbD_and], regsKeptBut_setReg s x _,
      onlyChanges_setReg s x _⟩,
    ⟨_, rfl, fun _ => by rw [reg_setReg_self, BitVec.getLsbD_xor], regsKeptBut_setReg s x _,
      onlyChanges_setReg s x _⟩⟩

/-! ### The result and then the flag (R170) -/

/-- The flag is what VF ends as, whatever the destination. -/
theorem reg_writeWithFlag_VF (s : State) (x : Nibble) (v : Byte) (b : Bool) :
    (s.writeWithFlag x v b).reg 0xF#4 = flagByte b :=
  (reg_writeWithFlag s x v b 0xF#4).trans (if_pos rfl)

/-- The result stands in every destination but VF. -/
theorem reg_writeWithFlag_of_ne {x : Nibble} (hx : x ≠ 0xF#4) (s : State) (v : Byte) (b : Bool) :
    (s.writeWithFlag x v b).reg x = v :=
  (reg_writeWithFlag s x v b x).trans ((if_neg hx).trans (if_pos rfl))

theorem regsKeptBut_writeWithFlag (s : State) (x : Nibble) (v : Byte) (b : Bool) :
    RegsKeptBut [x, 0xF#4] s (s.writeWithFlag x v b) := by
  intro r hr
  obtain ⟨hx, hf⟩ : r ≠ x ∧ r ≠ VF := by simpa [VF] using hr
  rw [reg_writeWithFlag, if_neg hf, if_neg hx]

/-! ### The flags as numbers -/

theorem flagByte_decide (p : Prop) [Decidable p] : flagByte (decide p) = if p then 0x01#8 else 0x00#8 := by
  by_cases hp : p <;> simp [flagByte, hp]

theorem flagByte_toNat (b : Bool) : (flagByte b).toNat = b.toNat := by
  cases b <;> rfl

theorem flagByte_eq_one_iff {b : Bool} : flagByte b = 0x01#8 ↔ b = true := by
  cases b <;> simp [flagByte]

theorem shiftedOutLow_toNat (v : Byte) : (shiftedOutLow v).toNat = v.toNat % 2 := by
  rw [shiftedOutLow, ← BitVec.testBit_toNat, Nat.toNat_testBit, pow_zero, Nat.div_one]

/-- A byte has no bit above bit 7. -/
theorem shiftedOutHigh_toNat (v : Byte) : (shiftedOutHigh v).toNat = v.toNat / 128 := by
  rw [shiftedOutHigh, ← BitVec.testBit_toNat, Nat.toNat_testBit]
  omega

theorem shiftedOutLow_iff (v : Byte) : shiftedOutLow v = true ↔ v.toNat % 2 = 1 := by
  rw [← shiftedOutLow_toNat, Bool.toNat_eq_one]

theorem shiftedOutHigh_iff (v : Byte) : shiftedOutHigh v = true ↔ 128 ≤ v.toNat := by
  rw [← Bool.toNat_eq_one, shiftedOutHigh_toNat]
  omega

/-! ### Addition and subtraction (R177, R178, R180) -/

/-- Settles O24: the sum is `BitVec` addition, and the carry is `carryOut` of the old operands. -/
theorem addWithCarry : Obligations.AddWithCarry := fun s x _ =>
  ⟨encodes_encode rfl, _, rfl, fun hx => by rw [reg_writeWithFlag_of_ne hx, BitVec.toNat_add],
    (reg_writeWithFlag_VF s x _ _).trans (flagByte_decide _), regsKeptBut_writeWithFlag s x _ _,
    onlyChanges_writeWithFlag s x _ _⟩

/-- The difference of two bytes as the spec computes it: on the integers, modulo 256. -/
theorem byteSub_toNat (m n : Byte) : ((m - n).toNat : Int) = ((m.toNat : Int) - n.toNat) % 256 := by
  rw [BitVec.toNat_sub]
  omega

/-- The polarity is borrow, so the flag is the borrow itself (R183, D8). -/
theorem flagByte_subFlag (m n : Byte) :
    flagByte (subFlag subVfPolarity (borrowOf m n)) = if m.toNat < n.toNat then 0x01#8 else 0x00#8 :=
  flagByte_decide _

/-- Settles O25: both are `byteSub_toNat` with the borrow of the old operands, the one with the operands exchanged. -/
theorem subtractWithBorrow : Obligations.SubtractWithBorrow :=
  ⟨fun _ => ⟨rfl, rfl⟩, rfl, fun s x _ => ⟨encodes_encode rfl, encodes_encode rfl,
    ⟨_, rfl, fun hx => by rw [reg_writeWithFlag_of_ne hx, byteSub_toNat],
      (reg_writeWithFlag_VF s x _ _).trans (flagByte_subFlag _ _), regsKeptBut_writeWithFlag s x _ _,
      onlyChanges_writeWithFlag s x _ _⟩,
    ⟨_, rfl, fun hx => by rw [reg_writeWithFlag_of_ne hx, byteSub_toNat],
      (reg_writeWithFlag_VF s x _ _).trans (flagByte_subFlag _ _), regsKeptBut_writeWithFlag s x _ _,
      onlyChanges_writeWithFlag s x _ _⟩⟩⟩

/-! ### Shifts (R179, R181) -/

theorem byteShiftRight_one_toNat (v : Byte) : (v >>> 1).toNat = v.toNat / 2 := by
  rw [BitVec.toNat_ushiftRight, Nat.shiftRight_one]

theorem byteShiftLeft_one_toNat (v : Byte) : (v <<< 1).toNat = v.toNat * 2 % 256 := by
  rw [BitVec.toNat_shiftLeft, Nat.shiftLeft_eq, pow_one]

/-- Settles O26: halving and doubling, each with the bit that it pushes out; neither meaning reads Y. -/
theorem shiftsByOne : Obligations.ShiftsByOne := fun s x _ =>
  ⟨encodes_encode rfl, encodes_encode rfl,
    ⟨_, rfl, fun hx => by rw [reg_writeWithFlag_of_ne hx, byteShiftRight_one_toNat],
      by rw [reg_writeWithFlag_VF, flagByte_toNat, shiftedOutLow_toNat], regsKeptBut_writeWithFlag s x _ _,
      onlyChanges_writeWithFlag s x _ _⟩,
    ⟨_, rfl, fun hx => by rw [reg_writeWithFlag_of_ne hx, byteShiftLeft_one_toNat],
      by rw [reg_writeWithFlag_VF, flagByte_toNat, shiftedOutHigh_toNat], regsKeptBut_writeWithFlag s x _ _,
      onlyChanges_writeWithFlag s x _ _⟩,
    fun _ => ⟨rfl, rfl⟩⟩

/-! ### VF as an operand of a flag writer (R22, R170) -/

/-- With X = F, VF holds 1 afterwards exactly when the flag is set, whatever the result was. -/
theorem writeWithFlag_VF_eq_one_iff (s : State) (v : Byte) (b : Bool) :
    (s.writeWithFlag 0xF#4 v b).reg 0xF#4 = 0x01#8 ↔ b = true := by
  rw [reg_writeWithFlag_VF, flagByte_eq_one_iff]

/-- Settles O27: VF ends as the flag, and the flag and the result are of the registers before either write. -/
theorem flagIsWrittenLast : Obligations.FlagIsWrittenLast := fun s _ _ =>
  ⟨⟨_, rfl, (writeWithFlag_VF_eq_one_iff s _ _).trans decide_eq_true_iff⟩,
    ⟨_, rfl, (writeWithFlag_VF_eq_one_iff s _ _).trans decide_eq_true_iff⟩,
    ⟨_, rfl, (writeWithFlag_VF_eq_one_iff s _ _).trans decide_eq_true_iff⟩,
    ⟨_, rfl, (writeWithFlag_VF_eq_one_iff s _ _).trans (shiftedOutLow_iff _)⟩,
    ⟨_, rfl, (writeWithFlag_VF_eq_one_iff s _ _).trans (shiftedOutHigh_iff _)⟩,
    fun hx => ⟨_, _, _, rfl, rfl, rfl, reg_writeWithFlag_of_ne hx s _ _, reg_writeWithFlag_of_ne hx s _ _,
      reg_writeWithFlag_of_ne hx s _ _⟩⟩

/-! ### The random draw (R182, R327) -/

/-- Masking a masked byte again changes nothing. -/
theorem and_mask_idem (v mask : Byte) : v &&& mask &&& mask = v &&& mask := by
  rw [BitVec.and_assoc, BitVec.and_self]

/-- The environment has put `b` on `in.rand` for the next draw (log 3). -/
def State.offerRand (s : State) (b : Byte) : State := { s with randIn := b :: s.randIn }

theorem randNow_offerRand (s : State) (b : Byte) : (s.offerRand b).randNow = b := rfl

theorem onlyChanges_offerRand (s : State) (b : Byte) : OnlyChanges [.rand] s (s.offerRand b) := by
  intro p hp; cases p <;> simp_all [Part.same, State.offerRand, State.reg]

/-- CXNN's one draw and one write. -/
theorem onlyChanges_takeRand_setReg (s : State) (x : Nibble) (v : Byte) :
    OnlyChanges [.regs, .rand, .draws] s (s.takeRand.setReg x v) :=
  onlyChanges_mono (onlyChanges_trans (onlyChanges_takeRand s) (onlyChanges_setReg _ x v)) (by simp)

/-- Settles O28: the byte drawn is `randNow`, and `offerRand` makes that any byte. -/
theorem randomIsMaskedDraw : Obligations.RandomIsMaskedDraw := fun s x nn =>
  ⟨encodes_encode rfl,
    ⟨_, rfl, reg_setReg_self s.takeRand x _, by rw [reg_setReg_self, and_mask_idem], rfl, rfl,
      regsKeptBut_setReg s.takeRand x _, onlyChanges_takeRand_setReg s x _⟩,
    fun b => ⟨s.offerRand b, _, onlyChanges_offerRand s b, rfl,
      by rw [reg_setReg_self, randNow_offerRand]⟩⟩

end Sys2Proof.Machine
end

section
/-! PROOFS. The index register and memory (spec/42_index_memory.md): what the accesses through I do in range and out of it, what
a stored block reads as, what a loaded block leaves in each register, and each instruction from these. -/

namespace Sys2Proof.Machine

/-! ### The accesses through I, in range and out of it -/

/-- The state after a store in range: V0..VX in memory. -/
def State.storeBlock (s : State) (x : Nibble) : State := s.setMem (s.mem.writeFrom s.I.toNat (s.regsUpTo x))

theorem exec_store_of_fits {s : State} {x : Nibble} (h : s.I.toNat + x.toNat ≤ 0xFFF) :
    exec (.store x) s = .next (s.storeBlock x) :=
  (execStore_eq x s).trans (congrArg _ (if_pos (by omega)))

theorem exec_store_of_outside {s : State} {x : Nibble} (h : 0xFFF < s.I.toNat + x.toNat) :
    exec (.store x) s = takeFault s (.memoryOutOfRange (max 0x1000 s.I.toNat) s.pc) :=
  (execStore_eq x s).trans (congrArg _ (if_neg (by omega)))

/-- The state after a load in range: V0..VX from memory. -/
def State.loadBlock (s : State) (x : Nibble) : State :=
  s.setRegsFrom0 ((List.range (x.toNat + 1)).map fun k => s.mem.read (s.I.toNat + k))

theorem exec_load_of_fits {s : State} {x : Nibble} (h : s.I.toNat + x.toNat ≤ 0xFFF) :
    exec (.load x) s = .next (s.loadBlock x) :=
  (execLoad_eq x s).trans (congrArg _ (if_pos (by omega)))

theorem exec_load_of_outside {s : State} {x : Nibble} (h : 0xFFF < s.I.toNat + x.toNat) :
    exec (.load x) s = takeFault s (.memoryOutOfRange (max 0x1000 s.I.toNat) s.pc) :=
  (execLoad_eq x s).trans (congrArg _ (if_neg (by omega)))

theorem exec_ldB_of_fits {s : State} {x : Nibble} (h : s.I.toNat + 2 ≤ 0xFFF) :
    exec (.ldB x) s = .next (s.setMem (s.mem.writeFrom s.I.toNat (decimalDigits (s.reg x)))) :=
  (execLdB_eq x s).trans (congrArg _ (if_pos (by omega)))

theorem exec_ldB_of_outside {s : State} {x : Nibble} (h : 0xFFF < s.I.toNat + 2) :
    exec (.ldB x) s = takeFault s (.memoryOutOfRange (max 0x1000 s.I.toNat) s.pc) :=
  (execLdB_eq x s).trans (congrArg _ (if_neg (by omega)))

/-! ### What a stored block reads as, and what a loaded one leaves -/

/-- Byte k of a block written within memory. -/
theorem read_writeFrom_add {m : Memory} {a k : Nat} {vs : List Byte} (hm : m.wf = true) (hend : a + vs.length ≤ 4096)
    (hk : k < vs.length) : (m.writeFrom a vs).read (a + k) = vs.getD k 0 := by
  rw [read_writeFrom vs m a (a + k) hm hend, if_pos (by omega), Nat.add_sub_cancel_left]

theorem read_storeBlock {s : State} {x k : Nibble} (hm : s.mem.wf = true) (hin : s.I.toNat + x.toNat ≤ 0xFFF)
    (hk : k.toNat ≤ x.toNat) :
    (s.storeBlock x).mem.read (s.I.toNat + k.toNat) = s.reg k := by
  have hlen := regsUpTo_length s x
  have hlt : k.toNat < (s.regsUpTo x).length := by omega
  rw [State.storeBlock, setMem_mem, read_writeFrom_add hm (by omega) hlt, List.getD_eq_getElem _ _ hlt,
    regsUpTo_getElem, BitVec.ofNat_toNat, BitVec.setWidth_eq]

theorem read_storeBlock_outside {s : State} {x : Nibble} {a : Nat} (ha : a < s.I.toNat ∨ s.I.toNat + x.toNat < a) :
    (s.storeBlock x).mem.read a = s.mem.read a :=
  read_writeFrom_outside _ _ _ _ (by rw [regsUpTo_length]; omega)

theorem reg_loadBlock (s : State) (x k : Nibble) :
    (s.loadBlock x).reg k = if k.toNat ≤ x.toNat then s.mem.read (s.I.toNat + k.toNat) else s.reg k := by
  rw [State.loadBlock, reg_setRegsFrom0]
  split
  · next h => rw [List.getD_eq_getElem _ _ (by simpa using Nat.lt_succ_of_le h)]; simp
  · next h => exact List.getD_eq_default _ _ (by simpa using h)

/-! ### Block store and load (R224, R225) -/

/-- Settles O34: the load reads at the same I what the store wrote there. -/
theorem storeThenLoadRestores : Obligations.StoreThenLoadRestores := by
  intro s u x hm hin
  refine ⟨_, exec_store_of_fits hin, fun hmem hI => ⟨_, exec_load_of_fits (hI ▸ hin), fun k => ?_⟩⟩
  rw [reg_loadBlock, hmem, hI]
  split
  · next hk => exact read_storeBlock hm hin hk
  · rfl

/-- Settles O32: the bytes of the block are the registers by `read_storeBlock`, in range. -/
theorem blockStoreWritesRegisters : Obligations.BlockStoreWritesRegisters := fun s _ =>
  ⟨encodes_encode rfl, rfl,
    fun hin => ⟨_, exec_store_of_fits hin, fun hm _ => read_storeBlock hm hin, fun _ => read_storeBlock_outside,
      onlyChanges_setMem s _⟩,
    fun hout => exec_store_of_outside hout ▸ haltsWith_takeFault s _⟩

/-- Settles O33: each register is as `reg_loadBlock` says, in range. -/
theorem blockLoadReadsRegisters : Obligations.BlockLoadReadsRegisters := fun s x =>
  ⟨encodes_encode rfl, rfl,
    fun hin => ⟨_, exec_load_of_fits hin, reg_loadBlock s x, onlyChanges_setRegsFrom0 s _⟩,
    fun hout => exec_load_of_outside hout ▸ haltsWith_takeFault s _⟩

/-! ### Decimal digits (R223) -/

/-- A byte is below 1000, so its hundreds are one digit. -/
theorem decimalDigits_toNat (v : Byte) :
    ((decimalDigits v).getD 0 0).toNat = v.toNat / 100 ∧ ((decimalDigits v).getD 1 0).toNat = v.toNat / 10 % 10 ∧
      ((decimalDigits v).getD 2 0).toNat = v.toNat % 10 :=
  ⟨Nat.mod_eq_of_lt (by omega), Nat.mod_eq_of_lt (by omega), Nat.mod_eq_of_lt (by omega)⟩

theorem read_digits {m : Memory} {a : Nat} (v : Byte) (hm : m.wf = true) (hin : a + 2 ≤ 0xFFF) :
    ((m.writeFrom a (decimalDigits v)).read a).toNat = v.toNat / 100 ∧
      ((m.writeFrom a (decimalDigits v)).read (a + 1)).toNat = v.toNat / 10 % 10 ∧
      ((m.writeFrom a (decimalDigits v)).read (a + 2)).toNat = v.toNat % 10 := by
  have hread (k : Nat) (hk : k < 3) : (m.writeFrom a (decimalDigits v)).read (a + k) = (decimalDigits v).getD k 0 :=
    read_writeFrom_add hm (by rw [decimalDigits_length]; omega) hk
  obtain ⟨hundreds, tens, units⟩ := decimalDigits_toNat v
  exact ⟨hread 0 (by decide) ▸ hundreds, hread 1 (by decide) ▸ tens, hread 2 (by decide) ▸ units⟩

/-- Settles O31: three bytes written, which are the digits by `read_digits`. -/
theorem bcdStoresDigits : Obligations.BcdStoresDigits := fun s x =>
  ⟨encodes_encode rfl,
    fun hin => ⟨_, exec_ldB_of_fits hin, fun hm => read_digits (s.reg x) hm hin,
      fun _ ha => read_writeFrom_outside _ _ _ _ (by rw [decimalDigits_length]; omega), onlyChanges_setMem s _⟩,
    fun hout => exec_ldB_of_outside hout ▸ haltsWith_takeFault s _⟩

/-! ### The index register alone (R220 to R222) -/

theorem regWide_toNat (s : State) (x : Nibble) : (s.regWide x).toNat = (s.reg x).toNat :=
  BitVec.toNat_setWidth_of_le (by decide)

/-- Settles O29: each of the two is one `setI`, of a zero-extended field and of a 16-bit sum. -/
theorem indexLoadAndAdd : Obligations.IndexLoadAndAdd := fun s x nnn =>
  ⟨encodes_encode rfl, encodes_encode rfl,
    ⟨_, rfl, addrOf_toNat nnn, onlyChanges_setI s _⟩,
    ⟨_, rfl, by rw [setI_I, BitVec.toNat_add, regWide_toNat], onlyChanges_setI s _⟩⟩

/-- Settles O30: one `setI`, whatever `Config.fontAddr` is. -/
theorem glyphAddressIsParameter : Obligations.GlyphAddressIsParameter := fun s _ =>
  ⟨encodes_encode rfl, _, rfl, rfl, onlyChanges_setI s _⟩

end Sys2Proof.Machine
end

section
/-! PROOFS. The framebuffer (spec/43_display.md): the sprite of DXYN as the rows the drawing reads, what one draw leaves in the
pixels and in VF, and each instruction from these. -/

namespace Sys2Proof.Machine

/-! ### Clearing the screen (R250) -/

/-- Settles O35: the clear is one `paint` of the blank framebuffer. -/
theorem clearScreen : Obligations.ClearScreen :=
  ⟨encodes_encode rfl, fun s => ⟨_, rfl, pixel_blank, rfl, onlyChanges_paint s _⟩⟩

/-! ### The sprite of a draw -/

/-- The pixels that DXYN toggles, by the state it finds. -/
def State.Covered (s : State) (x y n : Nibble) (px : Fin 64) (py : Fin 32) : Prop :=
  SpriteCovers s.mem s.I.toNat (s.startColumn x) (s.startRow y) n.toNat px py

/-- Row r of the sprite is the byte at I + r. -/
theorem rowsCover_spriteRows (s : State) (n : Nibble) (x0 y0 : Nat) (px : Fin 64) (py : Fin 32) :
    RowsCover x0 y0 (spriteRows s n) px py ↔ SpriteCovers s.mem s.I.toNat x0 y0 n.toNat px py := by
  simp only [RowsCover, RowCovers, SpriteCovers, spriteRows, List.getElem_map, List.getElem_range, List.length_map,
    List.length_range]
  constructor
  · rintro ⟨r, hr, hrow, hleft, hright, hbit⟩
    rw [hrow, Nat.add_sub_cancel_left]
    exact ⟨hleft, hright, Nat.le_add_right y0 r, Nat.add_lt_add_left hr y0, hbit⟩
  · rintro ⟨hleft, hright, htop, hbottom, hbit⟩
    exact ⟨py.val - y0, by omega, by omega, hleft, hright, hbit⟩

/-- What the drawing loop makes of the state's framebuffer. -/
def State.drawn (s : State) (x y n : Nibble) : Canvas :=
  Canvas.drawRows ⟨s.fb, false⟩ (s.startColumn x) (s.startRow y) (spriteRows s n)

theorem toggles_drawn (s : State) (x y n : Nibble) : Toggles ⟨s.fb, false⟩ (s.drawn x y n) (s.Covered x y n) := by
  have hcovers : RowsCover (s.startColumn x) (s.startRow y) (spriteRows s n) = s.Covered x y n :=
    funext₂ fun px py => propext (rowsCover_spriteRows s n _ _ px py)
  rw [← hcovers]
  exact drawRows_spec _ _ _ _

/-! ### One draw, in range and out of it (R251, R66) -/

/-- The state after a draw in range: the canvas painted, then the collision in VF. -/
def State.drawSprite (s : State) (x y n : Nibble) : State :=
  (s.paint (s.drawn x y n).fb).setReg VF (flagByte (s.drawn x y n).collision)

theorem exec_drw_of_fits {s : State} {x y n : Nibble} (h : n.toNat = 0 ∨ s.I.toNat + n.toNat - 1 ≤ 0xFFF) :
    exec (.drw x y n) s = .next (s.drawSprite x y n) :=
  (execDrw_eq x y n s).trans (congrArg _ (if_pos (by omega)))

theorem exec_drw_of_outside {s : State} {x y n : Nibble} (hn : 1 ≤ n.toNat) (h : 0xFFF < s.I.toNat + n.toNat - 1) :
    exec (.drw x y n) s = takeFault s (.memoryOutOfRange (max 0x1000 s.I.toNat) s.pc) :=
  (execDrw_eq x y n s).trans (congrArg _ (if_neg (by omega)))

theorem pixel_drawSprite (s : State) (x y n : Nibble) (px : Fin 64) (py : Fin 32) :
    Framebuffer.pixel (s.drawSprite x y n).fb px py = true ↔
      ¬(Framebuffer.pixel s.fb px py = true ↔ s.Covered x y n px py) :=
  (toggles_drawn s x y n).1 px py

theorem reg_drawSprite_VF (s : State) (x y n : Nibble) :
    (s.drawSprite x y n).reg 0xF#4 = flagByte (s.drawn x y n).collision :=
  reg_setReg_self _ _ _

theorem flagByte_eq_zero_or_one (b : Bool) : flagByte b = 0x00#8 ∨ flagByte b = 0x01#8 := by
  cases b
  · exact .inl rfl
  · exact .inr rfl

/-- The collision starts out clear, so it is with a pixel lit before the draw. -/
theorem reg_drawSprite_VF_eq_one_iff (s : State) (x y n : Nibble) :
    (s.drawSprite x y n).reg 0xF#4 = 0x01#8 ↔
      ∃ px py, Framebuffer.pixel s.fb px py = true ∧ s.Covered x y n px py := by
  rw [reg_drawSprite_VF, flagByte_eq_one_iff, (toggles_drawn s x y n).2]
  simp only [Bool.false_eq_true, false_or, and_comm]

theorem regsKeptBut_drawSprite (s : State) (x y n : Nibble) : RegsKeptBut [0xF#4] s (s.drawSprite x y n) :=
  regsKeptBut_setReg (s.paint _) VF _

theorem onlyChanges_drawSprite (s : State) (x y n : Nibble) :
    OnlyChanges [.fb, .dirty, .regs] s (s.drawSprite x y n) :=
  onlyChanges_trans (onlyChanges_paint s _) (onlyChanges_setReg _ VF _)

/-- Settles O36: the loop is the description by `toggles_drawn`, in range. -/
theorem drawTogglesCoveredPixels : Obligations.DrawTogglesCoveredPixels := fun s x y n =>
  ⟨encodes_encode rfl,
    fun hin => ⟨_, exec_drw_of_fits hin, pixel_drawSprite s x y n,
      reg_drawSprite_VF s x y n ▸ flagByte_eq_zero_or_one _, reg_drawSprite_VF_eq_one_iff s x y n, rfl,
      regsKeptBut_drawSprite s x y n, onlyChanges_drawSprite s x y n⟩,
    fun hn hout => exec_drw_of_outside hn hout ▸ haltsWith_takeFault s _⟩

/-! ### Two draws at one place -/

/-- A draw keeps memory, I and every register but VF, and so where a sprite placed by other registers goes. -/
theorem covered_drawSprite {x y : Nibble} (hx : x ≠ 0xF#4) (hy : y ≠ 0xF#4) (s : State) (n : Nibble) :
    (s.drawSprite x y n).Covered x y n = s.Covered x y n := by
  have hkept := regsKeptBut_drawSprite s x y n
  have hregx := hkept x (mt List.mem_singleton.mp hx)
  have hregy := hkept y (mt List.mem_singleton.mp hy)
  funext px py
  rw [State.Covered, State.startColumn, State.startRow, hregx, hregy]
  rfl

theorem pixel_drawSprite_twice {x y : Nibble} (hx : x ≠ 0xF#4) (hy : y ≠ 0xF#4) (s : State) (n : Nibble) (px : Fin 64)
    (py : Fin 32) :
    Framebuffer.pixel ((s.drawSprite x y n).drawSprite x y n).fb px py = Framebuffer.pixel s.fb px py := by
  rw [Bool.eq_iff_iff, pixel_drawSprite, pixel_drawSprite, covered_drawSprite hx hy]
  tauto

/-- The pixels that one draw lights are the covered ones it leaves lit. -/
theorem lit_by_drawSprite_iff (s : State) (x y n : Nibble) (px : Fin 64) (py : Fin 32) :
    Framebuffer.pixel (s.drawSprite x y n).fb px py = true ∧ s.Covered x y n px py ↔
      Framebuffer.pixel s.fb px py = false ∧ Framebuffer.pixel (s.drawSprite x y n).fb px py = true := by
  rw [pixel_drawSprite, ← Bool.not_eq_true]
  tauto

/-- Settles O37: the second draw covers the same pixels, toggles them back, and collides with those the first one lit. -/
theorem drawTwiceRestoresScreen : Obligations.DrawTwiceRestoresScreen := by
  intro s x y n hx hy hin
  refine ⟨_, _, exec_drw_of_fits hin, exec_drw_of_fits (s := s.drawSprite x y n) hin,
    pixel_drawSprite_twice hx hy s n, ?_⟩
  rw [reg_drawSprite_VF_eq_one_iff, covered_drawSprite hx hy]
  exact exists₂_congr (lit_by_drawSprite_iff s x y n)

end Sys2Proof.Machine
end

section
/-! PROOFS. Timers and keys (spec/44_timers_keys.md): the key query in range and out of it, the key press by the driver state that
it finds, and each instruction from these. -/

namespace Sys2Proof.Machine

/-! ### Timer transfers and the beginning of a wait (R270 to R272, R275) -/

/-- Settles O38: each transfer is one update, of a register or of a timer. -/
theorem timerTransfers : Obligations.TimerTransfers := fun s x =>
  ⟨encodes_encode rfl, encodes_encode rfl, encodes_encode rfl,
    ⟨_, rfl, reg_setReg_self s x _, regsKeptBut_setReg s x _, onlyChanges_setReg s x _⟩,
    ⟨_, rfl, rfl, onlyChanges_setDT s _⟩,
    ⟨_, rfl, rfl, onlyChanges_setST s _⟩⟩

/-- Settles O40: the wait begins by one `setRun`. -/
theorem keyWaitBegins : Obligations.KeyWaitBegins := fun s _ =>
  ⟨encodes_encode rfl, _, rfl, rfl, onlyChanges_setRun s _⟩

/-! ### The key query (R273, R274, R306) -/

/-- The state after a key query in range: the snapshot used up, and pc moved on where the key drawn is as asked for. -/
def State.afterKeyQuery (s : State) (key down : Bool) : State := s.takeKeys.skipIf (key == down)

theorem keySkip_of_key {s : State} {x : Nibble} (down : Bool) (h : (s.reg x).toNat < 16) :
    keySkip down x s = .next (s.afterKeyQuery s.keysNow[(s.reg x).toNat] down) := dif_pos h

theorem keySkip_of_no_key {s : State} {x : Nibble} (down : Bool) (h : 0xF < (s.reg x).toNat) :
    keySkip down x s = takeFault s (.keyIndexOutOfRange (s.reg x) s.pc) := dif_neg (Nat.not_lt.mpr h)

theorem afterKeyQuery_down_pc (s : State) (key : Bool) :
    (s.afterKeyQuery key true).pc = if key = true then s.pc + 2#16 else s.pc := by
  cases key <;> rfl

theorem afterKeyQuery_up_pc (s : State) (key : Bool) :
    (s.afterKeyQuery key false).pc = if key = true then s.pc else s.pc + 2#16 := by
  cases key <;> rfl

theorem afterKeyQuery_keysIn (s : State) (key down : Bool) : (s.afterKeyQuery key down).keysIn = s.keysIn.tail := by
  rw [State.afterKeyQuery, skipIf_eq, setPc_keysIn, takeKeys_keysIn]

theorem afterKeyQuery_draws (s : State) (key down : Bool) : (s.afterKeyQuery key down).draws = s.draws + 1 := by
  rw [State.afterKeyQuery, skipIf_eq, setPc_draws, takeKeys_draws]

theorem onlyChanges_afterKeyQuery (s : State) (key down : Bool) :
    OnlyChanges [.pc, .keys, .draws] s (s.afterKeyQuery key down) :=
  onlyChanges_mono (onlyChanges_trans (onlyChanges_takeKeys s) (onlyChanges_skipIf _ _)) (by simp)

theorem haltsWith_keySkip {s : State} {x : Nibble} (down : Bool) (h : 0xF < (s.reg x).toNat) :
    HaltsWith (keySkip down x s) s (.keyIndexOutOfRange (s.reg x) s.pc) := by
  rw [keySkip_of_no_key down h]
  exact haltsWith_takeFault s _

/-- Settles O39, by whether V[X] names a key: both skips are the one key query. -/
theorem keySkips : Obligations.KeySkips := fun s _ =>
  ⟨encodes_encode rfl, encodes_encode rfl,
    fun hkey =>
      ⟨⟨_, keySkip_of_key true hkey, afterKeyQuery_down_pc s _, afterKeyQuery_keysIn s _ _,
          afterKeyQuery_draws s _ _, onlyChanges_afterKeyQuery s _ _⟩,
        ⟨_, keySkip_of_key false hkey, afterKeyQuery_up_pc s _, afterKeyQuery_keysIn s _ _,
          afterKeyQuery_draws s _ _, onlyChanges_afterKeyQuery s _ _⟩⟩,
    fun hnone => ⟨haltsWith_keySkip true hnone, haltsWith_keySkip false hnone⟩⟩

/-! ### The key press (R276, R326) -/

theorem keyPressStep_of_waiting {s : State} {x : Nibble} (h : s.run = .waitingForKey x) (k : Nibble) :
    keyPressStep k s = (s.setReg x (k.setWidth 8)).setRun .running := by
  unfold keyPressStep
  rw [h]

/-- A press while Running is not latched (D41). -/
theorem keyPressStep_of_running {s : State} (h : s.run = .running) (k : Nibble) : keyPressStep k s = s := by
  unfold keyPressStep
  rw [h]

theorem step_of_keyPress {s u : State} {k : Nibble} (hn : NotHalted s) (h : HasTurn (.keyPress k) s u) :
    step s = .next (keyPressStep k u) := step_of_hasTurn hn h

theorem run_of_hasTurn {a : Turn} {s u : State} (h : HasTurn a s u) : u.run = s.run := by
  obtain ⟨g, -, rfl⟩ := h
  rfl

/-- A key number as a register holds it. -/
theorem keyByte_toNat (k : Nibble) : (k.setWidth 8 : Byte).toNat = k.toNat := BitVec.toNat_setWidth_of_le (by decide)

/-- Settles O41, by the driver state that the press finds. -/
theorem keyPressCompletesWait : Obligations.KeyPressCompletesWait := by
  refine fun s u k hturn => ⟨fun x hwait => ?_, fun hrun => ?_⟩
  · rw [step_of_keyPress (.inr ⟨x, hwait⟩) hturn,
      keyPressStep_of_waiting ((run_of_hasTurn hturn).trans hwait)]
    exact ⟨_, rfl, rfl, (congrArg BitVec.toNat (reg_setReg_self u x _)).trans (keyByte_toNat k),
      regsKeptBut_setReg u x _, onlyChanges_trans (onlyChanges_setReg u x _) (onlyChanges_setRun _ _)⟩
  · rw [step_of_keyPress (.inl hrun) hturn, keyPressStep_of_running ((run_of_hasTurn hturn).trans hrun)]
    exact ⟨u, rfl, onlyChanges_refl [] u⟩

end Sys2Proof.Machine
end

section
/-! PROOFS. Faults (spec/60_exceptions.md R300 to R310): what an instruction's execute phase can raise and where, that a fault
commits nothing of the instruction's own, that the record it leaves is true, and that nothing happens once halted. -/

namespace Sys2Proof.Machine

/-! ### What an instruction can raise -/

/-- The instruction, executed in `s`, raises the fault (R302 to R306, R308). -/
inductive ExecFault (s : State) : Instr → HaltReason → Prop where
  | ret (h : s.stack = []) : ExecFault s .ret (.stackUnderflow s.pc)
  | call {nnn : Addr12} (h : 16 ≤ s.stack.length) : ExecFault s (.call nnn) (.stackOverflow s.pc)
  | drw {x y n : Nibble} (h : ¬(n.toNat = 0 ∨ s.I.toNat + n.toNat ≤ 4096)) :
      ExecFault s (.drw x y n) (.memoryOutOfRange (max 0x1000 s.I.toNat) s.pc)
  | ldB {x : Nibble} (h : ¬s.I.toNat + 3 ≤ 4096) :
      ExecFault s (.ldB x) (.memoryOutOfRange (max 0x1000 s.I.toNat) s.pc)
  | store {x : Nibble} (h : ¬s.I.toNat + (x.toNat + 1) ≤ 4096) :
      ExecFault s (.store x) (.memoryOutOfRange (max 0x1000 s.I.toNat) s.pc)
  | load {x : Nibble} (h : ¬s.I.toNat + (x.toNat + 1) ≤ 4096) :
      ExecFault s (.load x) (.memoryOutOfRange (max 0x1000 s.I.toNat) s.pc)
  | skp {x : Nibble} (h : 16 ≤ (s.reg x).toNat) : ExecFault s (.skp x) (.keyIndexOutOfRange (s.reg x) s.pc)
  | sknp {x : Nibble} (h : 16 ≤ (s.reg x).toNat) : ExecFault s (.sknp x) (.keyIndexOutOfRange (s.reg x) s.pc)

theorem skipIf_run (s : State) (c : Bool) : (s.skipIf c).run = s.run := by
  rw [skipIf_eq, setPc_run]

/-- What an instruction can make of the driver state: it keeps it, or begins a wait, or raises its fault in the state as it
found it. -/
def RunsOnOrFaults (i : Instr) (s t : State) : Prop :=
  t.run = s.run ∨ (∃ x, t.run = .waitingForKey x) ∨ ∃ r, ExecFault s i r ∧ t = s.halt r

/-- An access through I, which is in range or faults. -/
theorem runsOnOrFaults_ite {c : Prop} [Decidable c] {i : Instr} {s t : State} {r : HaltReason} (ht : t.run = s.run)
    (hf : ¬c → ExecFault s i r) : RunsOnOrFaults i s (if c then t else s.halt r) := by
  split
  · exact .inl ht
  · next hc => exact .inr (.inr ⟨r, hf hc, rfl⟩)

theorem keySkip_runsOnOrFaults {down : Bool} {x : Nibble} {i : Instr} {s t : State} (h : keySkip down x s = .next t)
    (hf : 16 ≤ (s.reg x).toNat → ExecFault s i (.keyIndexOutOfRange (s.reg x) s.pc)) : RunsOnOrFaults i s t := by
  rcases keySkip_cases down x s with ⟨_, hk⟩ | ⟨hout, hk⟩ <;> cases hk.symm.trans h
  · exact .inl (skipIf_run s.takeKeys _)
  · exact .inr (.inr ⟨_, hf hout, rfl⟩)

theorem exec_runsOnOrFaults {i : Instr} {s t : State} (h : exec i s = .next t) : RunsOnOrFaults i s t := by
  cases i
  case ret =>
    rcases exec_ret_cases h with ⟨hs, rfl⟩ | ⟨_, _, _, rfl⟩
    · exact .inr (.inr ⟨_, .ret hs, rfl⟩)
    · exact .inl rfl
  case call =>
    rcases exec_call_cases h with ⟨hfull, rfl⟩ | ⟨_, rfl⟩
    · exact .inr (.inr ⟨_, .call hfull, rfl⟩)
    · exact .inl rfl
  case drw x y n =>
    cases (execDrw_eq x y n s).symm.trans h
    exact runsOnOrFaults_ite rfl .drw
  case ldB x =>
    cases (execLdB_eq x s).symm.trans h
    exact runsOnOrFaults_ite rfl .ldB
  case store x =>
    cases (execStore_eq x s).symm.trans h
    exact runsOnOrFaults_ite rfl .store
  case load x =>
    cases (execLoad_eq x s).symm.trans h
    exact runsOnOrFaults_ite rfl .load
  case skp => exact keySkip_runsOnOrFaults h .skp
  case sknp => exact keySkip_runsOnOrFaults h .sknp
  case ldKey x =>
    cases h
    exact .inr (.inl ⟨x, rfl⟩)
  case seImm | sneImm | seReg | sneReg =>
    cases h
    exact .inl (skipIf_run s _)
  all_goals
    cases h
    exact .inl rfl

theorem NotHalted.run_ne {s : State} (h : NotHalted s) (r : HaltReason) : s.run ≠ .halted r :=
  (alive_iff s).mp (notHalted_iff.mp h) r

/-- An instruction that halts the machine has raised its fault, and the state is the one it found, halted (R309). -/
theorem exec_halted {i : Instr} {s t : State} {r : HaltReason} (hn : NotHalted s) (h : exec i s = .next t)
    (hr : t.run = .halted r) : ExecFault s i r ∧ t = s.halt r := by
  rcases exec_runsOnOrFaults h with hkept | ⟨x, hwait⟩ | ⟨q, hf, rfl⟩
  · exact absurd (hkept.symm.trans hr) (hn.run_ne r)
  · cases hwait.symm.trans hr
  · cases hr
    exact ⟨hf, rfl⟩

/-- Settles O49, by the faults there are. -/
theorem oneFaultKindPerInstruction : Obligations.OneFaultKindPerInstruction := by
  intro i s t r hn h hr
  obtain ⟨hf, -⟩ := exec_halted hn h hr
  cases hf with
  | ret => rfl
  | call => exact ⟨_, rfl⟩
  | drw => exact .inl ⟨_, _, _, rfl⟩
  | ldB => exact .inr ⟨_, .inl rfl⟩
  | store => exact .inr ⟨_, .inr (.inl rfl)⟩
  | load => exact .inr ⟨_, .inr (.inr rfl)⟩
  | skp => exact ⟨_, .inl rfl⟩
  | sknp => exact ⟨_, .inr rfl⟩

/-! ### The record of a fault -/

theorem ExecFault.explains {s : State} {i : Instr} {r : HaltReason} (h : ExecFault s i r) : r.Explains s := by
  cases h with
  | ret hs => exact ⟨rfl, hs⟩
  | call hfull => exact ⟨rfl, hfull⟩
  | drw | ldB | store | load => exact ⟨rfl, rfl⟩
  | skp hout | sknp hout => exact ⟨rfl, hout, _, rfl⟩

/-- The halt itself changes nothing that a record speaks of. -/
theorem explains_halt {s : State} {r q : HaltReason} : r.Explains (s.halt q) ↔ r.Explains s := by
  cases r <;> exact Iff.rfl

/-- Everything an instruction step that halts the machine can have done: no word was fetched, or pc advanced, and then the
record is true of that state, which is halted (R304, R309). -/
theorem instructionStep_halted {s t : State} {r : HaltReason} (hrun : s.run = .running)
    (h : instructionStep s = .next t) (hr : t.run = .halted r) :
    (0xFFE < s.pc.toNat ∧ r = .pcOutOfRange s.pc ∧ t = s.halt r) ∨
      (s.pc.toNat ≤ 0xFFE ∧ r.Explains (s.setPc (s.pc + 2#16)) ∧ t = (s.setPc (s.pc + 2#16)).halt r) := by
  rcases instructionStep_cases h with ⟨hpc, rfl⟩ | ⟨w, e, hf, he, rfl⟩ | ⟨w, i, hf, -, hx⟩
  · cases hr
    exact .inl ⟨hpc, rfl, rfl⟩
  · cases hr
    exact .inr ⟨(fetch_eq_some.mp hf).1, ⟨rfl, hf, e, he⟩, rfl⟩
  · obtain ⟨hfault, rfl⟩ := exec_halted (s := s.setPc (s.pc + 2#16)) (.inl hrun) hx hr
    exact .inr ⟨(fetch_eq_some.mp hf).1, hfault.explains, rfl⟩

/-- Settles O48: the state left is the one the fault was raised in, halted. -/
theorem faultsArePrecise : Obligations.FaultsArePrecise := by
  refine ⟨fun i s t r hn h hr => ?_, fun s u t r hrun hturn h hr => ?_⟩
  · obtain ⟨-, rfl⟩ := exec_halted hn h hr
    exact onlyChanges_halt s r
  · rw [step_of_running hrun hturn] at h
    have hpc : u.pc = s.pc := by
      obtain ⟨g, -, rfl⟩ := hturn
      rfl
    rw [← hpc]
    rcases instructionStep_halted ((run_of_hasTurn hturn).trans hrun) h hr with ⟨-, rfl, rfl⟩ | ⟨hle, -, rfl⟩
    · exact ⟨onlyChanges_mono (onlyChanges_halt u _) (by simp), .inl ⟨rfl, rfl⟩⟩
    · exact ⟨onlyChanges_mono (onlyChanges_trans (onlyChanges_setPc u _) (onlyChanges_halt _ r)) (by simp),
        .inr ⟨hle, rfl⟩⟩

theorem haltExplained_of_notHalted {s : State} (h : NotHalted s) : s.HaltExplained :=
  fun r hr => absurd hr (h.run_ne r)

theorem instructionStep_haltExplained {s t : State} (hrun : s.run = .running) (h : instructionStep s = .next t) :
    t.HaltExplained := by
  intro r hr
  rcases instructionStep_halted hrun h hr with ⟨hpc, rfl, rfl⟩ | ⟨-, hex, rfl⟩
  · exact ⟨rfl, hpc⟩
  · exact explains_halt.mpr hex

theorem coreTurn_haltExplained {s t : State} (h : coreTurn s = .next t) : t.HaltExplained := by
  rcases coreTurn_cases h with ⟨hrun, hi⟩ | ⟨x, hwait, rfl⟩
  · exact instructionStep_haltExplained hrun hi
  · exact haltExplained_of_notHalted (.inr ⟨x, hwait⟩)

/-! ### The other agents' steps in a machine that is not halted -/

theorem quitStep_of_alive {s : State} (h : s.alive = true) : quitStep s = s.halt .quit := if_pos h

theorem notHalted_keyPressStep {s : State} (h : NotHalted s) (k : Nibble) : NotHalted (keyPressStep k s) := by
  rcases h with hrun | ⟨x, hwait⟩
  · rw [keyPressStep_of_running hrun]
    exact .inl hrun
  · rw [keyPressStep_of_waiting hwait]
    exact .inl rfl

/-- Settles O58, by the agent that has the turn: beside the core, only a quit halts the machine. -/
theorem haltRecordIsTrue : Obligations.HaltRecordIsTrue := by
  intro s t h
  obtain ⟨halive, g, hturn⟩ := step_cases h
  have hg : (s.setAgenda g).alive = true := halive
  have hn : NotHalted (s.setAgenda g) := notHalted_iff.mpr halive
  rcases hturn with hcore | rfl | rfl | ⟨k, rfl⟩ | rfl
  · exact coreTurn_haltExplained hcore
  · rw [timerTick_of_alive hg]
    exact haltExplained_of_notHalted hn
  · rw [redrawStep_of_alive hg]
    exact haltExplained_of_notHalted hn
  · exact haltExplained_of_notHalted (notHalted_keyPressStep hn k)
  · rw [quitStep_of_alive hg]
    intro r hr
    cases hr
    trivial

/-! ### Halted (R310) -/

theorem coreTurn_of_halted {s : State} {r : HaltReason} (h : s.run = .halted r) : coreTurn s = .fault (.halted r) := by
  unfold coreTurn
  rw [h]

theorem keyPressStep_of_halted {s : State} {r : HaltReason} (h : s.run = .halted r) (k : Nibble) :
    keyPressStep k s = s := by
  unfold keyPressStep
  rw [h]

/-- Settles O42: the steps of the other agents are not enabled there. -/
theorem haltedIsTerminal : Obligations.HaltedIsTerminal := by
  intro s r h
  have hdead : ¬s.alive = true := fun ha => (alive_iff s).mp ha r h
  refine ⟨fun t ht => ?_, fun t ht => ?_, if_neg hdead, if_neg hdead, keyPressStep_of_halted h, if_neg hdead⟩
  · cases (step_halted h).symm.trans ht
  · cases (coreTurn_of_halted h).symm.trans ht

end Sys2Proof.Machine
end

section
/-! PROOFS. The agents beside the core and the output ports (spec/60_exceptions.md R314 to R324): that a machine which is not
halted goes on, a turn at a time, until the timer's turn comes, what the agents do in their turns, and what the ports say. -/

namespace Sys2Proof.Machine

/-! ### A machine that is not halted goes on (R324) -/

theorem exec_agenda {i : Instr} {s t : State} (h : exec i s = .next t) : t.agenda = s.agenda :=
  exec_keeps_part h (agenda_not_mem_writes i) (by decide)

theorem exists_exec (i : Instr) (s : State) : ∃ t, exec i s = .next t := by
  obtain ⟨t, h, -⟩ := exec_haltsOrWrites i s
  exact ⟨t, h⟩

/-- An instruction step has a next state, with the agenda as it was. -/
theorem exists_instructionStep (s : State) : ∃ t, instructionStep s = .next t ∧ t.agenda = s.agenda := by
  cases hf : fetch s.mem s.pc with
  | none => exact ⟨_, instructionStep_of_pc_beyond (fetch_eq_none.mp hf), rfl⟩
  | some w =>
    rw [instructionStep_of_fetch hf]
    unfold decodeAndExecute
    cases decode w with
    | error e => exact ⟨_, rfl, rfl⟩
    | ok i =>
      obtain ⟨t, h⟩ := exists_exec i (s.setPc (s.pc + 2#16))
      exact ⟨t, h, exec_agenda (s := s.setPc (s.pc + 2#16)) h⟩

/-- So has any agent's turn in a machine that is not halted. -/
theorem exists_takeTurn {s : State} (hn : NotHalted s) (a : Turn) :
    ∃ t, takeTurn a s = .next t ∧ t.agenda = s.agenda := by
  have halive := notHalted_iff.mp hn
  cases a with
  | core =>
    rcases hn with hrun | ⟨x, hwait⟩
    · obtain ⟨t, h, hagenda⟩ := exists_instructionStep s
      exact ⟨t, (coreTurn_of_running hrun).trans h, hagenda⟩
    · exact ⟨s, coreTurn_of_waiting hwait, rfl⟩
  | tick => exact ⟨_, congrArg Host.Outcome.next (timerTick_of_alive halive), rfl⟩
  | redraw => exact ⟨_, congrArg Host.Outcome.next (redrawStep_of_alive halive), rfl⟩
  | keyPress k =>
    rcases hn with hrun | ⟨x, hwait⟩
    · exact ⟨_, congrArg Host.Outcome.next (keyPressStep_of_running hrun k), rfl⟩
    · exact ⟨_, congrArg Host.Outcome.next (keyPressStep_of_waiting hwait k), rfl⟩
  | quit => exact ⟨_, congrArg Host.Outcome.next (quitStep_of_alive halive), rfl⟩

theorem exists_step {s : State} (hn : NotHalted s) : ∃ t, step s = .next t ∧ t.agenda = s.agenda.rest := by
  rw [step_alive (notHalted_iff.mp hn)]
  exact exists_takeTurn (s := s.setAgenda s.agenda.rest) hn s.agenda.next

/-- Settles O47: the turn is the agenda's `next`, and any agent can be listed first on it. -/
theorem everyInstructionHasNext : Obligations.EveryInstructionHasNext := by
  refine ⟨exists_exec, fun s hn => ?_, fun s => ?_, fun s a => ?_⟩
  · obtain ⟨t, h, -⟩ := exists_step hn
    exact ⟨t, h⟩
  · exact ⟨_, _, hasTurn_iff.mpr ⟨rfl, rfl⟩, fun b v hb => hasTurn_iff.mp hb⟩
  · exact ⟨_, _, onlyChanges_setAgenda s ⟨[a], [], 0⟩, hasTurn_listed rfl⟩

/-! ### The turns of the timer, the redraw and the quit -/

theorem halted_or_notHalted (s : State) : (∃ r, s.run = .halted r) ∨ NotHalted s := by
  unfold NotHalted
  cases s.run with
  | running => exact .inr (.inl rfl)
  | waitingForKey x => exact .inr (.inr ⟨x, rfl⟩)
  | halted r => exact .inl ⟨r, rfl⟩

/-- A machine goes on until the timer's turn, unless it halts before. -/
theorem reaches_halt_or_tick {s : State} (hn : NotHalted s) (hcomes : s.agenda.TickComes) :
    ∃ t, Reaches s t ∧ ((∃ r, t.run = .halted r) ∨ NotHalted t ∧ ∃ u, HasTurn .tick t u) := by
  generalize hg : s.agenda = g at hcomes
  induction hcomes generalizing s with
  | now hnext =>
    subst hg
    exact ⟨s, .start, .inr ⟨hn, _, hasTurn_iff.mpr ⟨hnext.symm, rfl⟩⟩⟩
  | later _ ih =>
    subst hg
    obtain ⟨u, hu, hagenda⟩ := exists_step hn
    rcases halted_or_notHalted u with hhalted | hun
    · exact ⟨u, .after .start hu, .inl hhalted⟩
    · obtain ⟨t, hr, ht⟩ := ih hun hagenda
      exact ⟨t, .trans (.after .start hu) hr, ht⟩

theorem alive_of_hasTurn {a : Turn} {s u : State} (hn : NotHalted s) (h : HasTurn a s u) : u.alive = true := by
  obtain ⟨g, -, rfl⟩ := h
  exact notHalted_iff.mp hn

/-- Settles O43: the tick is `countedDown`, and a fair agenda comes to it. -/
theorem tickCountsBothTimers : Obligations.TickCountsBothTimers := by
  refine ⟨fun s u hn hturn => ?_, fun s hn hfair => reaches_halt_or_tick hn (tickComes_of_fairToTimer hfair)⟩
  rw [step_of_hasTurn hn hturn, takeTurn, timerTick_of_alive (alive_of_hasTurn hn hturn)]
  refine ⟨_, rfl, ?_, ?_, onlyChanges_countedDown u⟩ <;> obtain ⟨g, -, rfl⟩ := hturn
  · exact countDown_toNat s.DT
  · exact countDown_toNat s.ST

/-- Entry y * 64 + x of the copy is pixel (x, y) (R321, D20). -/
theorem snapshot_getElem (fb : Framebuffer) (x : Fin 64) (y : Fin 32) (h : y.val * 64 + x.val < 2048) :
    fb.snapshot[y.val * 64 + x.val] = Framebuffer.pixel fb x y := by
  have hx : (y.val * 64 + x.val) % 64 = x.val := by omega
  have hy : (y.val * 64 + x.val) / 64 = y.val := by omega
  simp [Framebuffer.snapshot, Framebuffer.pixel, hx, hy]

/-- Settles O44: the redraw is one `handOff`. -/
theorem redrawHandsOffPixels : Obligations.RedrawHandsOffPixels := by
  intro s u hn hturn
  rw [step_of_hasTurn hn hturn, takeTurn, redrawStep_of_alive (alive_of_hasTurn hn hturn)]
  obtain ⟨g, -, rfl⟩ := hturn
  exact ⟨_, _, rfl, rfl, snapshot_getElem s.fb, rfl, onlyChanges_handOff _⟩

/-- Settles O45: the quit is one `halt`. -/
theorem quitHalts : Obligations.QuitHalts := by
  intro s u hn hturn
  rw [step_of_hasTurn hn hturn, takeTurn, quitStep_of_alive (alive_of_hasTurn hn hturn)]
  exact ⟨_, rfl, rfl, onlyChanges_halt u _⟩

/-! ### The output ports (R323) -/

theorem waitingForKeyOut_iff (s : State) : s.waitingForKeyOut = true ↔ ∃ x, s.run = .waitingForKey x := by
  unfold State.waitingForKeyOut
  cases s.run <;> simp

theorem haltReason_eq_some_iff (s : State) (r : HaltReason) : s.haltReason = some r ↔ s.run = .halted r := by
  unfold State.haltReason
  cases s.run <;> simp

theorem haltedOut_iff (s : State) : s.haltedOut = true ↔ ∃ r, s.run = .halted r := by
  simp only [State.haltedOut, Option.isSome_iff_exists, haltReason_eq_some_iff]

/-- Settles O46, port by port; the codes are those of `haltCode`. -/
theorem outputsFollowState : Obligations.OutputsFollowState := fun s =>
  ⟨bne_iff_ne, bne_iff_ne, rfl, waitingForKeyOut_iff s, haltedOut_iff s, haltReason_eq_some_iff s,
    fun _ => rfl, fun _ _ => rfl, fun _ => rfl, fun _ => rfl, fun _ => rfl, fun _ _ => rfl, fun _ _ => rfl, rfl⟩

end Sys2Proof.Machine
end

section
/-! PROOFS. Reset, program load and boot (spec/70_reset_and_hazards.md): the reset values, the image in memory, and the
invariant along every run from boot. -/

namespace Sys2Proof.Machine

/-! ### Reset (R351) -/

/-- An address that is not listed reads zero, below 0x200 by `LOW_IMAGE` (D13). -/
@[simp] theorem unlisted_eq_zero (a : Nat) : Memory.unlisted a = 0x00#8 := by
  unfold Memory.unlisted lowImage
  split <;> rfl

theorem read_reset (a : Nat) : State.reset.mem.read a = 0x00#8 := unlisted_eq_zero a

theorem reg_reset (r : Nibble) : State.reset.reg r = 0x00#8 := Vector.getElem_replicate r.isLt

/-- Settles O54: memory, the registers and the screen by their reads; the rest is written out in `State.reset`. -/
theorem resetValues : Obligations.ResetValues :=
  ⟨read_reset, reg_reset, rfl, rfl, rfl, pixel_blank, rfl, rfl, rfl, rfl, rfl, rfl, rfl, rfl⟩

/-- Settles O56: memory and the stack are empty, and pc is 0x200. -/
theorem resetMeetsInv : Obligations.ResetMeetsInv :=
  ⟨wf_reset, Nat.zero_le 16, List.forall_mem_nil _, by decide⟩

/-! ### The program load (R352) -/

/-- Inside the bytes that fit, the image's byte is not among those dropped (D33). -/
theorem getD_take_of_lt {vs : List Byte} {n k : Nat} (h : k < n) (d : Byte) : (vs.take n).getD k d = vs.getD k d := by
  simp only [List.getD_eq_getElem?_getD, List.getElem?_take_of_lt h]

/-- The memory a load leaves, read at any address. -/
theorem read_loadProgram {s : State} (image : List Byte) (h : s.mem.wf = true) (a : Nat) :
    (s.loadProgram image).mem.read a =
      if 0x200 ≤ a ∧ a < 0x200 + min image.length 0xE00 then image.getD (a - 0x200) 0 else s.mem.read a := by
  have hfits : 0x200 + (image.take 0xE00).length ≤ 4096 := by
    have := List.length_take_le 0xE00 image
    omega
  have hread := read_writeFrom (image.take 0xE00) s.mem 0x200 a h hfits
  rw [List.length_take, Nat.min_comm] at hread
  refine hread.trans (ite_congr rfl (fun hin => getD_take_of_lt ?_ 0) fun _ => rfl)
  have := Nat.min_le_right image.length 0xE00
  omega

theorem onlyChanges_loadProgram (s : State) (image : List Byte) : OnlyChanges [.mem] s (s.loadProgram image) :=
  onlyChanges_setMem s _

/-- Settles O55: the load is one `writeFrom` of the bytes that fit. -/
theorem programLoadPlacesImage : Obligations.ProgramLoadPlacesImage := fun s image hwf =>
  ⟨wf_loadProgram s image hwf, read_loadProgram image hwf, onlyChanges_loadProgram s image⟩

/-! ### Runs from boot (R353, R324) -/

theorem loadProgram_inv {s : State} (image : List Byte) (hs : s.Inv) : (s.loadProgram image).Inv := by
  obtain ⟨hwf, hrest⟩ := hs
  exact ⟨wf_loadProgram s image hwf, hrest⟩

/-- The environment's lists are no part of the invariant. -/
theorem bootIn_inv (image : List Byte) (turns : Agenda) (rand : List Byte) (keys : List KeySnapshot) :
    (State.bootIn image turns rand keys).Inv :=
  inv_congr (loadProgram_inv image resetMeetsInv) rfl rfl rfl

theorem bootIn_notHalted (image : List Byte) (turns : Agenda) (rand : List Byte) (keys : List KeySnapshot) :
    NotHalted (State.bootIn image turns rand keys) := .inl rfl

/-- Settles O59: the machine boots running and within the invariant; every step keeps the invariant and leaves a true
halt record. -/
theorem runsFromBootAreSound : Obligations.RunsFromBootAreSound := by
  intro image turns rand keys t hreach
  refine hreach.keeps (P := fun u => u.Inv ∧ u.HaltExplained) (fun u v hu hstep => ?_) ⟨?_, ?_⟩
  · exact ⟨stepKeepsInv u v hu.left hstep, haltRecordIsTrue u v hstep⟩
  · exact bootIn_inv image turns rand keys
  · exact haltExplained_of_notHalted (bootIn_notHalted image turns rand keys)

end Sys2Proof.Machine
end
